-- ==== Sys2Proof/Word.lean ====
section
/-! DEFINITION. The value types of the pilight PTC core. Every value is an unsigned integer of a stated
width (spec 00_scope.md R7); the widths are those of 10_state.md R12 with DUR_WIDTH = 16, LEN_WIDTH = 8 and
ID_WIDTH = 20 (00_scope.md R6). DESIGN CHOICE (log entry 10): the widths are fixed, not parameters. -/

namespace Sys2Proof

/-- A 4-bit value (00_scope.md R7). -/
abbrev Nibble := BitVec 4

/-- One duration in microseconds, DUR_WIDTH = 16 bits (00_scope.md R6). -/
abbrev Dur := BitVec 16

/-- A 20-bit identifier of five nibbles (30_encoding.md R65). -/
abbrev Ident := BitVec 20

/-- A 24-bit register: the register image of a bit vector (10_state.md R16), or register WV. -/
abbrev Bits24 := BitVec 24

/-- A 32-bit command word (30_encoding.md R66). -/
abbrev Word := BitVec 32

/-- The pulse sequence RAW[0..49] (10_state.md R13). -/
abbrev RawSeq := Vector Dur 50

/-- Sixteen identifiers, the array VAR[0..15] (10_state.md R23). -/
abbrev VarArray := Vector Ident 16

/-- The four entries of one state-code list; `none` is the spec's `absent` (10_state.md R25). -/
abbrev CodeList := Vector (Option Nibble) 4

/-- The table branch (00_scope.md glossary). -/
inductive Branch where
  | A
  | B
  deriving DecidableEq, Repr

end Sys2Proof
end

