-- ==== Sys2Proof/Syntax.lean ====
section
/-! DEFINITION. The thirteen commands (30_encoding.md R70), one constructor per row of the opcode table, with
the operands of the notation of R74. Fields of the command word that a format marks "ignored" (R67 to R69)
are no operands. -/

namespace Sys2Proof

/-- A command with its operands. -/
inductive Instr where
  /-- FV.VAL, the frame validator (44_frame_validator.md R171). -/
  | fvVal
  /-- PT.DEM, demodulate (40_pulse_timing.md R91). -/
  | ptDem
  /-- PT.BASE, write the baseline (40_pulse_timing.md R94). -/
  | ptBase
  /-- PT.WR start, stop: write the bits of WV into a range of positions; the fields START and END of
  format W (30_encoding.md R68, 40_pulse_timing.md R96). -/
  | ptWr (start stop : BitVec 5)
  /-- PT.FOOT, write the footer (40_pulse_timing.md R98). -/
  | ptFoot
  /-- SC.SEL id, select the table branch (41_cipher.md R111). -/
  | scSel (id : Ident)
  /-- SC.DEC id, decode the chain (41_cipher.md R113). -/
  | scDec (id : Ident)
  /-- SC.ENCA id, enumerate the sixteen encoded variants (41_cipher.md R115). -/
  | scEnca (id : Ident)
  /-- US.DEC id, unit: state code to state (42_unit_state.md R131). -/
  | usDec (unit : Nibble) (id : Ident)
  /-- US.ENC id, unit, on: (unit, state) to canonical state code (42_unit_state.md R133). -/
  | usEnc (on : Bool) (unit : Nibble) (id : Ident)
  /-- CM.BUILD id, unit, on, with diagnostic bits when `bits` (45_builder_and_decode.md R181). -/
  | cmBuild (bits on : Bool) (unit : Nibble) (id : Ident)
  /-- DECODE, the receive path (45_builder_and_decode.md R183). -/
  | decode
  /-- ENCODE with the presence bits IDV and UNV and the flags ON and OFF (43_synthesizer.md R151). -/
  | encode (idv unv on off : Bool) (unit : Nibble) (id : Ident)
  deriving DecidableEq, Repr

end Sys2Proof
end

