-- ==== Sys2Proof/WellFormed.lean ====
section
/-! DEFINITION. When a command is legal as an instruction. Operand widths are the types' business, and the
spec names one further condition, the range of PT.WR (30_encoding.md R68, R71). -/

namespace Sys2Proof

/-- "The range is legal when START <= END and END <= 23" (30_encoding.md R68). -/
def legalRange (start stop : BitVec 5) : Bool :=
  decide (start.toNat ≤ stop.toNat) && decide (stop.toNat ≤ 23)

/-- Every command but a PT.WR with an illegal range is legal (30_encoding.md R71: "There are no other illegal
words"). An ill-formed PT.WR still decodes, and its meaning raises IllegalCommand. -/
def Instr.wellFormed : Instr → Bool
  | .ptWr start stop => legalRange start stop
  | .fvVal => true
  | .ptDem => true
  | .ptBase => true
  | .ptFoot => true
  | .scSel _ => true
  | .scDec _ => true
  | .scEnca _ => true
  | .usDec _ _ => true
  | .usEnc _ _ _ => true
  | .cmBuild _ _ _ _ => true
  | .decode => true
  | .encode _ _ _ _ _ _ => true

end Sys2Proof
end

