-- ==== Sys2Proof/Decode.lean ====
section
/-! DEFINITION. The decoder and the encoder of the command word, both from the tables of 30_encoding.md R66 to
R70 and the notation of R74. There is no instruction memory and there are no bytes (20_memory.md R46, R54): the
decoder reads the whole 32-bit word that the host writes to CMD. -/

namespace Sys2Proof

/-- Why a word is no command: its opcode is reserved (30_encoding.md R71). -/
inductive DecodeError where
  | reservedOpcode (opc : Nibble)
  deriving DecidableEq, Repr

/-- The field of `n` bits whose lowest bit is bit `lo` of the word (00_scope.md R7: `w[lo+n-1 : lo]`). -/
def wordField (w : Word) (lo n : Nat) : BitVec n := w.extractLsb' lo n

/-- OPC, bits 31:28 (R66). -/
def opcodeOf (w : Word) : Nibble := wordField w 28 4

/-- START, bits 9:5 of format W (R68). -/
def startOf (w : Word) : BitVec 5 := wordField w 5 5

/-- END, bits 4:0 of format W (R68). -/
def stopOf (w : Word) : BitVec 5 := wordField w 0 5

/-- F27, bit 27 of format R (R69). -/
def f27Of (w : Word) : Bool := w.getLsbD 27

/-- F26, bit 26 of format R (R69). -/
def f26Of (w : Word) : Bool := w.getLsbD 26

/-- ON, bit 25 of format R (R69). -/
def onOf (w : Word) : Bool := w.getLsbD 25

/-- OFF, bit 24 of format R (R69). -/
def offOf (w : Word) : Bool := w.getLsbD 24

/-- UNIT, bits 23:20 of format R (R69). -/
def unitField (w : Word) : Nibble := wordField w 20 4

/-- ID, bits 19:0 of format R (R69). -/
def idField (w : Word) : Ident := wordField w 0 20

/-- The command a word encodes, by its opcode alone (R70); total, and a reserved opcode is rejected by name
(R71). -/
def decode (w : Word) : Except DecodeError Instr :=
  match (opcodeOf w).toNat with
  | 0x1 => .ok .fvVal
  | 0x2 => .ok .ptDem
  | 0x3 => .ok .ptBase
  | 0x4 => .ok (.ptWr (startOf w) (stopOf w))
  | 0x5 => .ok .ptFoot
  | 0x6 => .ok (.scSel (idField w))
  | 0x7 => .ok (.scDec (idField w))
  | 0x8 => .ok (.scEnca (idField w))
  | 0x9 => .ok (.usDec (unitField w) (idField w))
  | 0xA => .ok (.usEnc (onOf w) (unitField w) (idField w))
  | 0xB => .ok (.cmBuild (f27Of w) (onOf w) (unitField w) (idField w))
  | 0xC => .ok .decode
  | 0xD => .ok (.encode (f27Of w) (f26Of w) (onOf w) (offOf w) (unitField w) (idField w))
  | _ => .error (.reservedOpcode (opcodeOf w))

/-- A format Z word (R67). -/
def wordZ (opc : Nibble) : Word := opc ++ 0#28

/-- A format W word (R68). -/
def wordW (opc : Nibble) (start stop : BitVec 5) : Word := opc ++ 0#18 ++ start ++ stop

/-- A format R word (R69). -/
def wordR (opc : Nibble) (f27 f26 on off : Bool) (unit : Nibble) (id : Ident) : Word :=
  opc ++ BitVec.ofBool f27 ++ BitVec.ofBool f26 ++ BitVec.ofBool on ++ BitVec.ofBool off ++ unit ++ id

/-- The word of a command, ignored fields written as 0 ("An assembler writes ignored fields as 0", R71; the
table of R74). -/
def encode : Instr → Word
  | .fvVal => wordZ 0x1
  | .ptDem => wordZ 0x2
  | .ptBase => wordZ 0x3
  | .ptWr start stop => wordW 0x4 start stop
  | .ptFoot => wordZ 0x5
  | .scSel id => wordR 0x6 false false false false 0 id
  | .scDec id => wordR 0x7 false false false false 0 id
  | .scEnca id => wordR 0x8 false false false false 0 id
  | .usDec unit id => wordR 0x9 false false false false unit id
  | .usEnc on unit id => wordR 0xA false false on false unit id
  | .cmBuild bits on unit id => wordR 0xB bits false on false unit id
  | .decode => wordZ 0xC
  | .encode idv unv on off unit id => wordR 0xD idv unv on off unit id

/-- The bits of a word that its command uses; the others are "ignored" (R67 to R69). -/
def usedBits : Instr → Word
  | .fvVal => 0xF0000000
  | .ptDem => 0xF0000000
  | .ptBase => 0xF0000000
  | .ptWr _ _ => 0xF00003FF
  | .ptFoot => 0xF0000000
  | .scSel _ => 0xF00FFFFF
  | .scDec _ => 0xF00FFFFF
  | .scEnca _ => 0xF00FFFFF
  | .usDec _ _ => 0xF0FFFFFF
  | .usEnc _ _ _ => 0xF2FFFFFF
  | .cmBuild _ _ _ _ => 0xFAFFFFFF
  | .decode => 0xF0000000
  | .encode _ _ _ _ _ _ => 0xFFFFFFFF

/-- A word given as the opcode table numbers its bits, `nbits` of them, the bits above zero. -/
def tableWord (nbits w : Nat) : Word := BitVec.ofNat 32 (w % 2 ^ nbits)

/-- The command that the decoder reads from a word of the opcode table (one 32-bit word; R66, R73: there is no
other length). -/
def decodeTableWord (nbits w : Nat) : Option Instr :=
  if nbits ≤ 32 then (decode (tableWord nbits w)).toOption else none

end Sys2Proof
end

