-- ==== Sys2Proof/Config.lean ====
section
/-! DEFINITION. The constants of 00_scope.md R5, each defined once under its own name, and what the spec
leaves open: the four constant tables (10_state.md R24 to R29) and the register values a platform reset
leaves (10_state.md R33), as opaque constants without a body. -/

namespace Sys2Proof.Config

/-- Elements in a pulse sequence (R5). -/
def N_RAW : Nat := 50

/-- Short pulse, microseconds (R5). -/
def SHORT : Nat := 550

/-- Long pulse, microseconds (R5). -/
def LONG : Nat := 1100

/-- Footer gap written on synthesis, microseconds (R5). -/
def FOOTER : Nat := 7200

/-- Bit-decision threshold on the trailing element of a pair; the comparison is strict (R5). -/
def THRESH : Nat := 550

/-- Lowest accepted footer, microseconds (R5). -/
def FOOT_LO : Nat := 6480

/-- Highest accepted footer, microseconds (R5). -/
def FOOT_HI : Nat := 7920

/-- Mask of the table-selection test, five bits (R5, 41_cipher.md R111). -/
def SEL_MASK : BitVec 5 := 0b10011

/-- Bits in the bit vector (R5). -/
abbrev N_BITS : Nat := 24

/-- Variants enumerated, one per candidate seed (R5). -/
abbrev N_VAR : Nat := 16

/-- Index of the canonical entry in a four-entry state-code list (R5). -/
abbrev CANON : Nat := 1

/-- The contents of the four constant tables, as far as the spec leaves them open. The substitution tables
are permutations by type (10_state.md R26). `usmAOpen` and `usmBOpen` hold the unit/state rows whose contents
the spec does not give; the rows it does give (R28, R29) are put over them in `Tables.usm`, so that every
value of this type is a set of tables that meets 10_state.md R26 to R29, and every such set is a value. -/
structure Tables where
  /-- SBOX_A. -/
  sboxA : Equiv.Perm Nibble
  /-- SBOX_B. -/
  sboxB : Equiv.Perm Nibble
  /-- The rows of USM_A, by unit and state (true is on); its row for unit 2 and on is not used. -/
  usmAOpen : Nibble → Bool → CodeList
  /-- The rows of USM_B, by unit and state; its rows for units 8 to 15 are not used. -/
  usmBOpen : Nibble → Bool → CodeList
  deriving Inhabited

/-- The tables of the device: parameters of the step function, not state (10_state.md R24, R32). Their
contents are in no source (91_not_in_source.md N2, N3), so nothing is known of this constant but its type
(log entry 1). -/
opaque tables : Tables

/-- The values of the registers that 10_state.md R33 leaves unspecified after a reset. -/
structure ResetData where
  raw : RawSeq
  wv : Bits24
  bvr : Bits24
  recId : Ident
  recUnit : Nibble
  recState : BitVec 1
  diag : Bits24
  sugId : Ident
  tsel : BitVec 1
  resId : Ident
  resState : BitVec 1
  resSc : Nibble
  var : VarArray
  deriving DecidableEq, Repr, Inhabited

/-- What the n-th platform reset of a run leaves in the unspecified registers: a free value under no law
(10_state.md R33, 93_implementation_defined.md U9; log entry 3). -/
opaque resetData : Nat → ResetData

end Sys2Proof.Config
end

