-- ==== Sys2Proof/Machine/State.lean ====
section
/-! DEFINITION. The state of one instance: the registers of 10_state.md R12, "and nothing else", and three
fields of the MODEL's own (`port`, `outputs`, `resets`; log entries 3 and 4). The reasons a step can stop are
here too. -/

namespace Sys2Proof.Machine

/-- Nothing faults: every command is total (60_exceptions.md R203), and a command's failure is an outcome kind
reported in STATUS (R200), that is, a next state. Nobody raises a fault. -/
inductive Fault where
  deriving DecidableEq, Repr

/-- The refusals are at the host boundary only (60_exceptions.md R203). -/
inductive Refusal where
  /-- Raised by `exec` for a command without a meaning; no arm of this model raises it. Safe. -/
  | notModelled (mnemonic : String)
  /-- Raised by a host access to a register index of 0x50 and above: "A model refuses such an access"
  (20_memory.md R45). Safe: the spec gives the access no meaning. -/
  | reservedIndex (idx : Nat)
  /-- Raised by a host write to a read-write register of a value that does not fit its width: "a model that
  takes `v` as a natural number refuses a value that does not fit" (20_memory.md R43). Safe. -/
  | valueDoesNotFit (idx v : Nat)
  deriving DecidableEq, Repr

/-- The registers by name (10_state.md R12). -/
inductive Reg where
  | raw (i : Fin 50)
  | len
  | wv
  | cmd
  | status
  | bvr
  | recId
  | recUnit
  | recState
  | diag
  | sugId
  | tsel
  | resId
  | resState
  | resSc
  | var (c : Fin 16)
  deriving DecidableEq, Repr

/-- What reaches the instance from outside: the host's accesses `RegRead(idx)` and `RegWrite(idx, v)`
(00_scope.md R9), and the platform's reset (70_reset_and_hazards.md R230). -/
inductive PortEvent where
  | read (idx : Nat)
  | write (idx v : Nat)
  | reset
  deriving DecidableEq, Repr

/-- The document's CommandRecord (10_state.md R20); `diagnosticBits` is the bit vector behind the string,
absent on encode. -/
structure CommandRecord where
  identifier : Ident
  unit : Nibble
  state : Bool
  diagnosticBits : Option Bits24
  deriving DecidableEq, Repr

/-- The registers of 10_state.md R12, in its order, and the model's own three fields after them. -/
structure State where
  /-- RAW[0..49] (R13). -/
  raw : RawSeq
  /-- LEN (R14). -/
  len : BitVec 8
  /-- WV (R15). -/
  wv : Bits24
  /-- CMD (R17). -/
  cmd : Word
  /-- STATUS (R18). -/
  status : BitVec 8
  /-- BVr, the register image of BV[0..23] (R16). -/
  bvr : Bits24
  /-- REC_ID (R20). -/
  recId : Ident
  /-- REC_UNIT (R20). -/
  recUnit : Nibble
  /-- REC_STATE, 1 on, 0 off (R20). -/
  recState : BitVec 1
  /-- DIAG (R20). -/
  diag : Bits24
  /-- SUG_ID (R21). -/
  sugId : Ident
  /-- TSEL, 0 branch A, 1 branch B (R22). -/
  tsel : BitVec 1
  /-- RES_ID (R22). -/
  resId : Ident
  /-- RES_STATE (R22). -/
  resState : BitVec 1
  /-- RES_SC (R22). -/
  resSc : Nibble
  /-- VAR[0..15] (R23). -/
  var : VarArray
  /-- The model's own: the port events still to come, oldest first (70_reset_and_hazards.md R246). -/
  port : List PortEvent
  /-- The model's own: the values returned by the host's reads so far, oldest first (R246). -/
  outputs : List Nat
  /-- The model's own: how many platform resets the run has seen; it indexes `Config.resetData`. -/
  resets : Nat
  deriving DecidableEq, Repr

/-- The registers after a reset (10_state.md R33): CMD, STATUS and LEN are 0, the unspecified registers hold
`d`. -/
def State.afterReset (d : Config.ResetData) (port : List PortEvent) (outputs : List Nat) (resets : Nat) :
    State where
  raw := d.raw
  len := 0
  wv := d.wv
  cmd := 0
  status := 0
  bvr := d.bvr
  recId := d.recId
  recUnit := d.recUnit
  recState := d.recState
  diag := d.diag
  sugId := d.sugId
  tsel := d.tsel
  resId := d.resId
  resState := d.resState
  resSc := d.resSc
  var := d.var
  port := port
  outputs := outputs
  resets := resets

/-- Zero in every register whose reset value the spec leaves unspecified. DESIGN CHOICE, unsafe (log entry 2). -/
def State.zeroData : Config.ResetData where
  raw := Vector.replicate 50 0
  wv := 0
  bvr := 0
  recId := 0
  recUnit := 0
  recState := 0
  diag := 0
  sugId := 0
  tsel := 0
  resId := 0
  resState := 0
  resSc := 0
  var := Vector.replicate 16 0

/-- The machine right after reset (10_state.md R33, 70_reset_and_hazards.md R230), no host access yet. The
registers R33 leaves unspecified hold 0: DESIGN CHOICE, unsafe (log entry 2). -/
def State.reset : State := State.afterReset State.zeroData [] [] 0

end Sys2Proof.Machine
end

