-- ==== Sys2Proof/Machine/Flags.lean ====
section
/-! DEFINITION. STATUS, the only flags of the hardware (10_state.md R18, R19): its word as a command writes it,
and its fields as a reader sees them. -/

namespace Sys2Proof.Machine

/-- The six outcome kinds (60_exceptions.md R200). -/
inductive OutcomeKind where
  | ok
  | frameRejected
  | unitUnsupported
  | consistencyFailure
  | argumentMissing
  | illegalCommand
  deriving DecidableEq, Repr

/-- The numeric codes (60_exceptions.md R200). -/
def kindCode : OutcomeKind → BitVec 4
  | .ok => 0
  | .frameRejected => 1
  | .unitUnsupported => 2
  | .consistencyFailure => 3
  | .argumentMissing => 4
  | .illegalCommand => 5

/-- The four validity flags of STATUS (10_state.md R18); a command that does not mention a flag writes it 0. -/
structure StatusFlags where
  recv : Bool := false
  diagv : Bool := false
  txv : Bool := false
  sugv : Bool := false
  deriving DecidableEq, Repr

/-- STATUS: CODE in bits 3:0, RECV bit 4, DIAGV bit 5, TXV bit 6, SUGV bit 7 (10_state.md R18). -/
def statusWord (k : OutcomeKind) (f : StatusFlags) : BitVec 8 :=
  BitVec.ofBool f.sugv ++ BitVec.ofBool f.txv ++ BitVec.ofBool f.diagv ++ BitVec.ofBool f.recv ++ kindCode k

/-- STATUS.CODE (10_state.md R18). -/
def State.code (s : State) : BitVec 4 := s.status.extractLsb' 0 4

/-- STATUS.RECV (10_state.md R18). -/
def State.recv (s : State) : Bool := s.status.getLsbD 4

/-- STATUS.DIAGV (10_state.md R18). -/
def State.diagv (s : State) : Bool := s.status.getLsbD 5

/-- STATUS.TXV (10_state.md R18). -/
def State.txv (s : State) : Bool := s.status.getLsbD 6

/-- STATUS.SUGV (10_state.md R18). -/
def State.sugv (s : State) : Bool := s.status.getLsbD 7

end Sys2Proof.Machine
end

