-- ==== Sys2Proof/Machine/Operands.lean ====
section
/-! DEFINITION. The operand forms: the nibbles of an identifier, the positions of a bit vector, the pairs of a
pulse sequence, and the entries of the four constant tables. -/

namespace Sys2Proof.Machine

open Sys2Proof.Config (Tables)

/-- `id[19:16]`, the type nibble (30_encoding.md R65). -/
def idType (id : Ident) : Nibble := id.extractLsb' 16 4

/-- `id[15:12]`, the seed nibble (R65). -/
def idSeed (id : Ident) : Nibble := id.extractLsb' 12 4

/-- `id[11:8]`, payload nibble 1 (R65). -/
def idP1 (id : Ident) : Nibble := id.extractLsb' 8 4

/-- `id[7:4]`, payload nibble 2 (R65). -/
def idP2 (id : Ident) : Nibble := id.extractLsb' 4 4

/-- `id[3:0]`, payload nibble 3, in an encoded identifier the state code (R65). -/
def idP3 (id : Ident) : Nibble := id.extractLsb' 0 4

/-- `{t, s, n1, n2, n3}`, the type nibble most significant (R65). -/
def mkId (t s n1 n2 n3 : Nibble) : Ident := t ++ s ++ n1 ++ n2 ++ n3

/-- `BV[p]` of a bit vector given by its register image: `BVr[23-p] = BV[p]` (10_state.md R16). -/
def bvAt (v : Bits24) (p : Nat) : Bool := v.getMsbD p

/-- The number whose most significant bit is `f 0`: the register image of a vector given position by position
(00_scope.md R8). -/
def packPositions : (n : Nat) → (Fin n → Bool) → BitVec n
  | 0, _ => 0#0
  | n + 1, f => (packPositions n fun i => f i.castSucc).concat (f (Fin.last n))

/-- `val(BV[0..19])`, the encoded identifier, that is `BVr[23:4]` (10_state.md R16, 30_encoding.md R65). -/
def bvIdent (v : Bits24) : Ident := v.extractLsb' 4 20

/-- `val(BV[20..23])`, the unit, that is `BVr[3:0]` (10_state.md R16). -/
def bvUnit (v : Bits24) : Nibble := v.extractLsb' 0 4

/-- A nominal duration as the content of a RAW register. -/
def durOf (microseconds : Nat) : Dur := BitVec.ofNat 16 microseconds

/-- The first element of the pair of a bit: 0 is (SHORT, LONG), 1 is (LONG, SHORT) (30_encoding.md R60). -/
def leadOf (bit : Bool) : Dur := durOf (if bit then Config.LONG else Config.SHORT)

/-- The second (trailing) element of the pair of a bit (30_encoding.md R60). -/
def trailOf (bit : Bool) : Dur := durOf (if bit then Config.SHORT else Config.LONG)

/-- RAW[2p], the leading element of position p (30_encoding.md R61). -/
def leadAt (raw : RawSeq) (p : Fin 24) : Dur := raw[2 * p.val]

/-- RAW[2p+1], the trailing element of position p (30_encoding.md R61). -/
def trailAt (raw : RawSeq) (p : Fin 24) : Dur := raw[2 * p.val + 1]

/-- RAW with the pair of position p written for a bit (30_encoding.md R60, R61). -/
def writePair (raw : RawSeq) (p : Fin 24) (bit : Bool) : RawSeq :=
  (raw.set (2 * p.val) (leadOf bit)).set (2 * p.val + 1) (trailOf bit)

/-- The positions first..last in order, `for p in first..last` (00_scope.md R9). -/
def positions (first last : Nat) : List (Fin 24) :=
  (List.finRange 24).filter fun p => decide (first ≤ p.val) && decide (p.val ≤ last)

/-- `SBOX(b)[x]` (00_scope.md R9). -/
def sbox (T : Tables) (b : Branch) (x : Nibble) : Nibble :=
  match b with
  | .A => T.sboxA x
  | .B => T.sboxB x

/-- USM_A[2][1] (10_state.md R28). -/
def usmA2On : CodeList := #v[some 10, some 6, some 1, some 5]

/-- A list all of whose entries are absent (10_state.md R29). -/
def absentList : CodeList := #v[none, none, none, none]

/-- `USM(b)[u][s]`, the four entries of a list; state index 1 is on (10_state.md R27), here `true`. The rows the
spec gives stand over the open ones: USM_A[2][1] (R28), and units 8 to 15 of USM_B (R29). -/
def usm (T : Tables) (b : Branch) (u : Nibble) (on : Bool) : CodeList :=
  match b with
  | .A => if u = 2 ∧ on = true then usmA2On else T.usmAOpen u on
  | .B => if 8 ≤ u.toNat then absentList else T.usmBOpen u on

end Sys2Proof.Machine
end

