-- ==== Sys2Proof/Machine/Ops.lean ====
section
/-! DEFINITION. The shared operations: how a command ends (`raise`, `finish`), how a record is written and
viewed, and how the register space is read and stored to (20_memory.md R40 to R43, R49). -/

namespace Sys2Proof.Machine

/-- `raise K` (60_exceptions.md R204): STATUS takes the code of K, SUGV = 1 only for a ConsistencyFailure, the
other flags 0, and nothing else is written. It stands for taking an exception; nothing is saved and control goes
nowhere. Nothing has to be returned from: the next command runs whatever STATUS holds (R205). -/
def raise (k : OutcomeKind) (s : State) : State :=
  { s with status := statusWord k { sugv := decide (k = .consistencyFailure) } }

/-- `done` (00_scope.md R9): outcome OK and the flags the command's rule states. -/
def finish (f : StatusFlags) (s : State) : State :=
  { s with status := statusWord .ok f }

/-- A record put into its registers (10_state.md R20); without diagnostic bits DIAG keeps its value
(45_builder_and_decode.md R181). -/
def writeRecord (r : CommandRecord) (s : State) : State :=
  { s with
    recId := r.identifier
    recUnit := r.unit
    recState := BitVec.ofBool r.state
    diag := r.diagnosticBits.getD s.diag }

/-- Character i of the diagnostic string is '1' when DIAG[23-i] = 1 and '0' otherwise (10_state.md R20). -/
def diagChars (d : Bits24) : List Char :=
  (List.finRange 24).map fun i => if d.getMsbD i.val then '1' else '0'

/-- The record as the host sees it: present when RECV = 1, its diagnostic bits present when DIAGV = 1
(10_state.md R20). -/
def State.record? (s : State) : Option CommandRecord :=
  if s.recv then
    some { identifier := s.recId, unit := s.recUnit, state := s.recState.getLsbD 0,
           diagnosticBits := if s.diagv then some s.diag else none }
  else none

/-- The register index of a register (10_state.md R12). -/
def Reg.index : Reg → Nat
  | .raw i => i.val
  | .len => 0x32
  | .wv => 0x33
  | .cmd => 0x34
  | .status => 0x35
  | .bvr => 0x36
  | .recId => 0x37
  | .recUnit => 0x38
  | .recState => 0x39
  | .diag => 0x3A
  | .sugId => 0x3B
  | .tsel => 0x3C
  | .resId => 0x3D
  | .resState => 0x3E
  | .resSc => 0x3F
  | .var c => 0x40 + c.val

/-- The width of a register in bits (10_state.md R12). -/
def Reg.width : Reg → Nat
  | .raw _ => 16
  | .len => 8
  | .wv => 24
  | .cmd => 32
  | .status => 8
  | .bvr => 24
  | .recId => 20
  | .recUnit => 4
  | .recState => 1
  | .diag => 24
  | .sugId => 20
  | .tsel => 1
  | .resId => 20
  | .resState => 1
  | .resSc => 4
  | .var _ => 20

/-- Whether the host may write a register: RAW, LEN, WV and CMD are RW, all others RO (10_state.md R12). -/
def Reg.writable : Reg → Bool
  | .raw _ => true
  | .len => true
  | .wv => true
  | .cmd => true
  | .status => false
  | .bvr => false
  | .recId => false
  | .recUnit => false
  | .recState => false
  | .diag => false
  | .sugId => false
  | .tsel => false
  | .resId => false
  | .resState => false
  | .resSc => false
  | .var _ => false

/-- The register at an index (20_memory.md R40, R49); none at 0x50 and above, which are reserved (R45). -/
def regAt (idx : Nat) : Option Reg :=
  if h : idx < 0x32 then some (.raw ⟨idx, h⟩)
  else if h : 0x40 ≤ idx ∧ idx < 0x50 then some (.var ⟨idx - 0x40, by omega⟩)
  else match idx with
    | 0x32 => some .len
    | 0x33 => some .wv
    | 0x34 => some .cmd
    | 0x35 => some .status
    | 0x36 => some .bvr
    | 0x37 => some .recId
    | 0x38 => some .recUnit
    | 0x39 => some .recState
    | 0x3A => some .diag
    | 0x3B => some .sugId
    | 0x3C => some .tsel
    | 0x3D => some .resId
    | 0x3E => some .resState
    | 0x3F => some .resSc
    | _ => none

/-- The value of a register, zero-extended (20_memory.md R42); a natural number, since the width of the host's
data path is left open (log entry 7). -/
def readReg (r : Reg) (s : State) : Nat :=
  match r with
  | .raw i => s.raw[i].toNat
  | .len => s.len.toNat
  | .wv => s.wv.toNat
  | .cmd => s.cmd.toNat
  | .status => s.status.toNat
  | .bvr => s.bvr.toNat
  | .recId => s.recId.toNat
  | .recUnit => s.recUnit.toNat
  | .recState => s.recState.toNat
  | .diag => s.diag.toNat
  | .sugId => s.sugId.toNat
  | .tsel => s.tsel.toNat
  | .resId => s.resId.toNat
  | .resState => s.resState.toNat
  | .resSc => s.resSc.toNat
  | .var c => s.var[c].toNat

/-- A value put into a register that the host may write; a register it may not write keeps its value
(20_memory.md R43). The value fits the register wherever this is called. -/
def storeReg (r : Reg) (v : Nat) (s : State) : State :=
  match r with
  | .raw i => { s with raw := s.raw.set i.val (BitVec.ofNat 16 v) }
  | .len => { s with len := BitVec.ofNat 8 v }
  | .wv => { s with wv := BitVec.ofNat 24 v }
  | .cmd => { s with cmd := BitVec.ofNat 32 v }
  | .status => s
  | .bvr => s
  | .recId => s
  | .recUnit => s
  | .recState => s
  | .diag => s
  | .sugId => s
  | .tsel => s
  | .resId => s
  | .resState => s
  | .resSc => s
  | .var _ => s

end Sys2Proof.Machine
end

