-- ==== Sys2Proof/Machine/FrameValidator.lean ====
section
/-! DEFINITION. FV.VAL, the frame validator (44_frame_validator.md). -/

namespace Sys2Proof.Machine

/-- `validate(RAW, LEN)`, true is accept (44_frame_validator.md R171): the length first, then both ends of the
footer window, which belong to it. -/
def validate (raw : RawSeq) (len : BitVec 8) : Bool :=
  if len.toNat ≠ Config.N_RAW then false
  else if raw[49].toNat < Config.FOOT_LO then false
  else if raw[49].toNat > Config.FOOT_HI then false
  else true

/-- FV.VAL on the registers (44_frame_validator.md R171, R173). -/
def runFvVal (s : State) : State :=
  if validate s.raw s.len then finish {} s else raise .frameRejected s

/-- FV.VAL. -/
def execFvVal (s : State) : Host.Outcome State Fault Refusal :=
  .next (runFvVal s)

end Sys2Proof.Machine
end

