-- ==== Sys2Proof/Machine/PulseTiming.lean ====
section
/-! DEFINITION. The pulse-timing commands PT.DEM, PT.BASE, PT.WR and PT.FOOT (40_pulse_timing.md). -/

namespace Sys2Proof.Machine

/-- `demod(RAW)` (40_pulse_timing.md R91): the bit of a position is 0 when its trailing element exceeds THRESH,
else 1; unsigned, strict. -/
def demod (raw : RawSeq) : Bits24 :=
  packPositions 24 fun p => if (trailAt raw p).toNat > Config.THRESH then false else true

/-- PT.DEM on the registers (R91). -/
def runPtDem (s : State) : State :=
  finish {} { s with bvr := demod s.raw }

/-- PT.DEM. -/
def execPtDem (s : State) : Host.Outcome State Fault Refusal :=
  .next (runPtDem s)

/-- `pt_base(RAW)` (40_pulse_timing.md R94): every pair written for the bit 0, RAW[48] SHORT, RAW[49] kept. -/
def ptBase (raw : RawSeq) : RawSeq :=
  ((positions 0 23).foldl (fun r p => writePair r p false) raw).set 48 (durOf Config.SHORT)

/-- PT.BASE on the registers (R94). -/
def runPtBase (s : State) : State :=
  finish {} { s with raw := ptBase s.raw }

/-- PT.BASE. -/
def execPtBase (s : State) : Host.Outcome State Fault Refusal :=
  .next (runPtBase s)

/-- `pt_write(RAW, first, last, v)` (40_pulse_timing.md R96): position p takes the bit of `v` of weight
2^(last-p). -/
def ptWrite {n : Nat} (raw : RawSeq) (first last : Nat) (v : BitVec n) : RawSeq :=
  (positions first last).foldl (fun r p => writePair r p (v.getLsbD (last - p.val))) raw

/-- PT.WR on the registers: the range is tested before anything is written (R96, 60_exceptions.md R206). -/
def runPtWr (start stop : BitVec 5) (s : State) : State :=
  if start.toNat > stop.toNat ∨ stop.toNat > 23 then raise .illegalCommand s
  else finish {} { s with raw := ptWrite s.raw start.toNat stop.toNat s.wv }

/-- PT.WR. -/
def execPtWr (start stop : BitVec 5) (s : State) : Host.Outcome State Fault Refusal :=
  .next (runPtWr start stop s)

/-- `pt_foot(RAW)` (40_pulse_timing.md R98). -/
def ptFoot (raw : RawSeq) : RawSeq :=
  raw.set 49 (durOf Config.FOOTER)

/-- PT.FOOT on the registers (R98). -/
def runPtFoot (s : State) : State :=
  finish {} { s with raw := ptFoot s.raw }

/-- PT.FOOT. -/
def execPtFoot (s : State) : Host.Outcome State Fault Refusal :=
  .next (runPtFoot s)

end Sys2Proof.Machine
end

