-- ==== Sys2Proof/Machine/Cipher.lean ====
section
/-! DEFINITION. The cipher commands SC.SEL, SC.DEC and SC.ENCA (41_cipher.md). The pure functions take the
tables as an argument; the commands use the device's, `Config.tables`. -/

namespace Sys2Proof.Machine

open Sys2Proof.Config (Tables)

/-- `select_table(t)` (41_cipher.md R111): the type zero-extended to the mask's five bits, and the mask. -/
def selectTable (t : Nibble) : Branch :=
  if t.zeroExtend 5 &&& Config.SEL_MASK ≠ 0 then .A else .B

/-- TSEL is 0 for branch A and 1 for branch B (10_state.md R22). -/
def branchBit : Branch → BitVec 1
  | .A => 0
  | .B => 1

/-- SC.SEL on the registers (R111). -/
def runScSel (id : Ident) (s : State) : State :=
  finish {} { s with tsel := branchBit (selectTable (idType id)) }

/-- SC.SEL. -/
def execScSel (id : Ident) (s : State) : Host.Outcome State Fault Refusal :=
  .next (runScSel id s)

/-- `decode_chain(b, s, e1, e2, e3)` (41_cipher.md R113): each decoded nibble depends on the encoded nibble
before it. -/
def decodeChain (T : Tables) (b : Branch) (seed e1 e2 e3 : Nibble) : Nibble × Nibble × Nibble :=
  (e1 ^^^ sbox T b seed, e2 ^^^ sbox T b e1, e3 ^^^ sbox T b e2)

/-- `sc_decode(enc)` (41_cipher.md R113): the type passes through, the seed decodes to 0. -/
def scDecode (T : Tables) (enc : Ident) : Ident :=
  match decodeChain T (selectTable (idType enc)) (idSeed enc) (idP1 enc) (idP2 enc) (idP3 enc) with
  | (d1, d2, d3) => mkId (idType enc) 0 d1 d2 d3

/-- SC.DEC on the registers (R113). -/
def runScDec (T : Tables) (id : Ident) (s : State) : State :=
  finish {} { s with resId := scDecode T id }

/-- SC.DEC. -/
def execScDec (id : Ident) (s : State) : Host.Outcome State Fault Refusal :=
  .next (runScDec Config.tables id s)

/-- The three encoded payload nibbles for a candidate seed, the body of the loop of 41_cipher.md R115. -/
def encodeChain (T : Tables) (b : Branch) (seed d1 d2 d3 : Nibble) : Nibble × Nibble × Nibble :=
  let e1 := sbox T b seed ^^^ d1
  let e2 := sbox T b e1 ^^^ d2
  let e3 := sbox T b e2 ^^^ d3
  (e1, e2, e3)

/-- `var[e3] = {t, c, e1, e2, e3}` for one candidate seed c (41_cipher.md R115). -/
def storeVariant (T : Tables) (t d1 d2 d3 c : Nibble) (var : VarArray) : VarArray :=
  match encodeChain T (selectTable t) c d1 d2 d3 with
  | (e1, e2, e3) => var.set e3.toNat (mkId t c e1 e2 e3) e3.isLt

/-- `encode_all_variants(t, d1, d2, d3)` (41_cipher.md R115): the candidate seeds 0..15 in order. Every entry is
stored to exactly once, the tables being permutations (R116), so nothing of the starting array is left
(log entry 13). -/
def encodeAllVariants (T : Tables) (t d1 d2 d3 : Nibble) : VarArray :=
  (List.finRange Config.N_VAR).foldl
    (fun var c => storeVariant T t d1 d2 d3 (BitVec.ofNat 4 c.val) var) (Vector.replicate 16 0)

/-- SC.ENCA on the registers (R115); the seed nibble of `id` is ignored. -/
def runScEnca (T : Tables) (id : Ident) (s : State) : State :=
  finish {} { s with var := encodeAllVariants T (idType id) (idP1 id) (idP2 id) (idP3 id) }

/-- SC.ENCA. -/
def execScEnca (id : Ident) (s : State) : Host.Outcome State Fault Refusal :=
  .next (runScEnca Config.tables id s)

end Sys2Proof.Machine
end

