-- ==== Sys2Proof/Machine/UnitState.lean ====
section
/-! DEFINITION. The unit-state commands US.DEC and US.ENC (42_unit_state.md). -/

namespace Sys2Proof.Machine

open Sys2Proof.Config (Tables)

/-- `us_decode(t, u, c)` (42_unit_state.md R131): on when the code is one of the present entries of the on list;
an absent entry equals no nibble (10_state.md R25), and off is the default (R132). -/
def usDecode (T : Tables) (t u c : Nibble) : Bool :=
  (usm T (selectTable t) u true).toList.any fun e => decide (e = some c)

/-- US.DEC on the registers (R131). -/
def runUsDec (T : Tables) (unit : Nibble) (id : Ident) (s : State) : State :=
  finish {} { s with resState := BitVec.ofBool (usDecode T (idType id) unit (idP3 id)) }

/-- US.DEC. -/
def execUsDec (unit : Nibble) (id : Ident) (s : State) : Host.Outcome State Fault Refusal :=
  .next (runUsDec Config.tables unit id s)

/-- `us_encode(t, u, st)` (42_unit_state.md R133): the canonical entry of the list, `none` where it is absent,
which is the failure UnitUnsupported. -/
def usEncode (T : Tables) (t u : Nibble) (st : Bool) : Option Nibble :=
  (usm T (selectTable t) u st)[Config.CANON]

/-- US.ENC on the registers (R133). -/
def runUsEnc (T : Tables) (on : Bool) (unit : Nibble) (id : Ident) (s : State) : State :=
  match usEncode T (idType id) unit on with
  | none => raise .unitUnsupported s
  | some sc => finish {} { s with resSc := sc }

/-- US.ENC. -/
def execUsEnc (on : Bool) (unit : Nibble) (id : Ident) (s : State) : Host.Outcome State Fault Refusal :=
  .next (runUsEnc Config.tables on unit id s)

end Sys2Proof.Machine
end

