-- ==== Sys2Proof/Machine/RecordBuilder.lean ====
section
/-! DEFINITION. The record builder CM.BUILD and the receive path DECODE (45_builder_and_decode.md). -/

namespace Sys2Proof.Machine

open Sys2Proof.Config (Tables)

/-- `build(id, unit, st, bits)` (45_builder_and_decode.md R181): it checks nothing, it only assembles. -/
def build (id : Ident) (unit : Nibble) (st : Bool) (bits : Option Bits24) : CommandRecord where
  identifier := id
  unit := unit
  state := st
  diagnosticBits := bits

/-- CM.BUILD on the registers (R181); `bits` is B. -/
def runCmBuild (bits on : Bool) (unit : Nibble) (id : Ident) (s : State) : State :=
  if bits then
    finish { recv := true, diagv := true } (writeRecord (build id unit on (some s.bvr)) s)
  else
    finish { recv := true } (writeRecord (build id unit on none) s)

/-- CM.BUILD. -/
def execCmBuild (bits on : Bool) (unit : Nibble) (id : Ident) (s : State) :
    Host.Outcome State Fault Refusal :=
  .next (runCmBuild bits on unit id s)

/-- `decode_frame(RAW, LEN)` (45_builder_and_decode.md R183); `none` is rejected. The state code handed to
`us_decode` is the encoded third payload nibble. -/
def decodeFrame (T : Tables) (raw : RawSeq) (len : BitVec 8) : Option CommandRecord :=
  if validate raw len then
    let v := demod raw
    let enc := bvIdent v
    let unit := bvUnit v
    some (build (scDecode T enc) unit (usDecode T (idType enc) unit (idP3 enc)) (some v))
  else none

/-- DECODE on the registers (R183, R184). -/
def runDecode (T : Tables) (s : State) : State :=
  match decodeFrame T s.raw s.len with
  | none => raise .frameRejected s
  | some r => finish { recv := true, diagv := true } (writeRecord r { s with bvr := demod s.raw })

/-- DECODE. -/
def execDecode (s : State) : Host.Outcome State Fault Refusal :=
  .next (runDecode Config.tables s)

end Sys2Proof.Machine
end

