-- ==== Sys2Proof/Machine/Synthesizer.lean ====
section
/-! DEFINITION. The synthesis command ENCODE (43_synthesizer.md). -/

namespace Sys2Proof.Machine

open Sys2Proof.Config (Tables)

/-- Steps 4 and 5 of 43_synthesizer.md R151: baseline, encoded identifier at positions 0 to 19, unit at positions
20 to 23, footer. -/
def synthesize (raw : RawSeq) (enc : Ident) (unit : Nibble) : RawSeq :=
  ptFoot (ptWrite (ptWrite (ptBase raw) 0 19 enc) 20 23 unit)

/-- Step 3 of R151: the one variant whose last nibble is the state code (R154). -/
def pickVariant (T : Tables) (id : Ident) (sc : Nibble) : Ident :=
  (encodeAllVariants T (idType id) (idP1 id) (idP2 id) (idP3 id))[sc.toNat]'sc.isLt

/-- Steps 3 to 6 of R151, with the state code found: write the sequence and LEN, demodulate and decode it again,
and compare all 20 bits with the request (R156). -/
def encodeWith (T : Tables) (on : Bool) (unit : Nibble) (id : Ident) (sc : Nibble) (s : State) : State :=
  let raw := synthesize s.raw (pickVariant T id sc) unit
  let written := { s with raw := raw, len := BitVec.ofNat 8 Config.N_RAW }
  let recovered := scDecode T (bvIdent (demod raw))
  if recovered ≠ id then
    raise .consistencyFailure { written with sugId := recovered }
  else
    finish { recv := true, txv := true } (writeRecord (build id unit on none) written)

/-- ENCODE on the registers: the argument check first (R152), then the state code (R153), then the rest (R158). -/
def runEncode (T : Tables) (idv unv on off : Bool) (unit : Nibble) (id : Ident) (s : State) : State :=
  if idv = false ∨ unv = false ∨ on = off then raise .argumentMissing s
  else
    match usEncode T (idType id) unit on with
    | none => raise .unitUnsupported s
    | some sc => encodeWith T on unit id sc s

/-- ENCODE. -/
def execEncode (idv unv on off : Bool) (unit : Nibble) (id : Ident) (s : State) :
    Host.Outcome State Fault Refusal :=
  .next (runEncode Config.tables idv unv on off unit id s)

end Sys2Proof.Machine
end

