-- ==== Sys2Proof/Machine/Dispatch.lean ====
section
/-! DEFINITION. One arm per command (30_encoding.md R70). -/

namespace Sys2Proof.Machine

def exec (i : Instr) (s : State) : Host.Outcome State Fault Refusal :=
  match i with
  | .fvVal => Sys2Proof.Machine.execFvVal s
  | .ptDem => Sys2Proof.Machine.execPtDem s
  | .ptBase => Sys2Proof.Machine.execPtBase s
  | .ptWr start stop => Sys2Proof.Machine.execPtWr start stop s
  | .ptFoot => Sys2Proof.Machine.execPtFoot s
  | .scSel id => Sys2Proof.Machine.execScSel id s
  | .scDec id => Sys2Proof.Machine.execScDec id s
  | .scEnca id => Sys2Proof.Machine.execScEnca id s
  | .usDec unit id => Sys2Proof.Machine.execUsDec unit id s
  | .usEnc on unit id => Sys2Proof.Machine.execUsEnc on unit id s
  | .cmBuild bits on unit id => Sys2Proof.Machine.execCmBuild bits on unit id s
  | .decode => Sys2Proof.Machine.execDecode s
  | .encode idv unv on off unit id => Sys2Proof.Machine.execEncode idv unv on off unit id s

end Sys2Proof.Machine
end

