-- ==== Sys2Proof/Machine/HostPort.lean ====
section
/-! DEFINITION. What one port event does: the host's accesses (20_memory.md R42 to R45) and the platform's reset
(70_reset_and_hazards.md R230). A program is a list of these events (R246). -/

namespace Sys2Proof.Machine

/-- The execution of a command word that CMD already holds (20_memory.md R44): the command it encodes, or
IllegalCommand for a reserved opcode (30_encoding.md R71). -/
def executeWord (w : Word) (s : State) : Host.Outcome State Fault Refusal :=
  match decode w with
  | .ok i => exec i s
  | .error _ => .next (raise .illegalCommand s)

/-- `RegRead(idx)` (20_memory.md R42): the value goes to the run's outputs, no register changes. A reserved index
is refused (R45). -/
def hostRead (idx : Nat) (s : State) : Host.Outcome State Fault Refusal :=
  match regAt idx with
  | none => .refused (.reservedIndex idx)
  | some r => .next { s with outputs := s.outputs ++ [readReg r s] }

/-- A write to a register that exists (20_memory.md R43): ignored at a read-only register, refused where the
value does not fit; a write to CMD stores the word first and then executes it (R44). -/
def writeReg (idx : Nat) (r : Reg) (v : Nat) (s : State) : Host.Outcome State Fault Refusal :=
  if r.writable then
    if v < 2 ^ r.width then
      if r = .cmd then executeWord (BitVec.ofNat 32 v) (storeReg r v s) else .next (storeReg r v s)
    else .refused (.valueDoesNotFit idx v)
  else .next s

/-- `RegWrite(idx, v)` (20_memory.md R43); a reserved index is refused (R45). -/
def hostWrite (idx v : Nat) (s : State) : Host.Outcome State Fault Refusal :=
  match regAt idx with
  | none => .refused (.reservedIndex idx)
  | some r => writeReg idx r v s

/-- The platform's reset (70_reset_and_hazards.md R230): the registers take the values of 10_state.md R33, the
unspecified ones a free value (log entry 3). It executes no command. -/
def platformReset (s : State) : State :=
  State.afterReset (Config.resetData s.resets) s.port s.outputs (s.resets + 1)

/-- One port event, already taken from the port. -/
def portEvent (e : PortEvent) (s : State) : Host.Outcome State Fault Refusal :=
  match e with
  | .read idx => hostRead idx s
  | .write idx v => hostWrite idx v s
  | .reset => .next (platformReset s)

/-- The pseudo-instruction `LDCAP n: v0 v1 ...` (30_encoding.md R74): the first min(n, 50) values written to RAW
in order, then min(n, 255) to LEN. -/
def ldcap (n : Nat) (vs : List Nat) : List PortEvent :=
  ((vs.take (min n 50)).zipIdx.map fun p => PortEvent.write p.2 p.1) ++ [.write 0x32 (min n 255)]

/-- A write of the word of a command to CMD (30_encoding.md R74). -/
def command (i : Instr) : PortEvent := .write 0x34 (encode i).toNat

/-- The host's duty before a write: a duration or a length above the register's largest value is written as that
value (10_state.md R13, R14, 70_reset_and_hazards.md R243). -/
def saturate (width v : Nat) : Nat := min v (2 ^ width - 1)

end Sys2Proof.Machine
end

