-- ==== Sys2Proof/Machine/Step.lean ====
section
/-! DEFINITION. One step: the oldest port event, or nothing where none is left: the core "is idle whenever no
command is executing" (70_reset_and_hazards.md R246). There is no program counter and no fetch (10_state.md R11):
a command comes to run when the host writes CMD (log entry 4). -/

namespace Sys2Proof.Machine

/-- One step of the machine. -/
def step (s : State) : Host.Outcome State Fault Refusal :=
  match s.port with
  | [] => .next s
  | e :: rest => portEvent e { s with port := rest }

/-- The state whose very next step is the host's write of this command word to CMD. -/
def State.withFetchWord (s : State) (nbits w : Nat) : State :=
  { s with port := .write 0x34 (tableWord nbits w).toNat :: s.port }

end Sys2Proof.Machine
end

