-- ==== Sys2Proof/Safety.lean ====
section
/-! DEFINITION. The words in which claims are stated: what a reset leaves, when a command succeeded, the legal
values of STATUS, and what a reader of the registers may conclude from its flags. -/

namespace Sys2Proof.Machine

/-- A state as a reset leaves the registers: CMD, STATUS and LEN are 0 and every other register holds any value
(10_state.md R33, 70_reset_and_hazards.md R230). -/
abbrev State.afterSomeReset (s : State) : Prop := s.cmd = 0 ∧ s.status = 0 ∧ s.len = 0

/-- "STATUS.CODE = 0 after each command" is what makes a run of commands a successful one (60_exceptions.md
R205). -/
abbrev State.lastOk (s : State) : Prop := s.code = 0

/-- The nine values that the command rules write to STATUS (40_pulse_timing.md to 45_builder_and_decode.md,
60_exceptions.md R200). -/
def statusValues : List (BitVec 8) := [0x00, 0x01, 0x02, 0x04, 0x05, 0x10, 0x30, 0x50, 0x83]

/-- STATUS holds one of the values some command rule writes, or its reset value. -/
abbrev State.statusLegal (s : State) : Prop := s.status ∈ statusValues

/-- The record registers hold this identifier, unit and state (10_state.md R20). -/
abbrev State.recordIs (s : State) (id : Ident) (unit : Nibble) (on : Bool) : Prop :=
  s.recId = id ∧ s.recUnit = unit ∧ s.recState = BitVec.ofBool on

/-- While RECV = 1 the last command word is a CM.BUILD, a DECODE or an ENCODE, and the record is the one that
command gives: the operands of a CM.BUILD (45_builder_and_decode.md R181), what the bit vector decodes to after a
DECODE (R183), the echo of the request of an ENCODE (43_synthesizer.md R157). -/
abbrev State.recvMeans (s : State) : Prop :=
  s.recv = true →
    (opcodeOf s.cmd = 0xB ∧ s.recordIs (idField s.cmd) (unitField s.cmd) (onOf s.cmd)) ∨
    (opcodeOf s.cmd = 0xC ∧
      s.recordIs (scDecode Config.tables (bvIdent s.bvr)) (bvUnit s.bvr)
        (usDecode Config.tables (idType (bvIdent s.bvr)) (bvUnit s.bvr) (idP3 (bvIdent s.bvr)))) ∨
    (opcodeOf s.cmd = 0xD ∧ s.recordIs (idField s.cmd) (unitField s.cmd) (onOf s.cmd))

/-- While TXV = 1 the last command word is an ENCODE with a zero seed nibble, and the record is its echo
(10_state.md R18, 43_synthesizer.md R157, R159). Nothing is said of RAW and LEN, which the host may write while
TXV stays 1. -/
abbrev State.txvMeans (s : State) : Prop :=
  s.txv = true →
    opcodeOf s.cmd = 0xD ∧ idSeed (idField s.cmd) = 0 ∧
      s.recordIs (idField s.cmd) (unitField s.cmd) (onOf s.cmd)

/-- While DIAGV = 1 the last command word is a CM.BUILD or a DECODE, and DIAG is the bit vector
(45_builder_and_decode.md R181, R183). -/
abbrev State.diagvMeans (s : State) : Prop :=
  s.diagv = true → (opcodeOf s.cmd = 0xB ∨ opcodeOf s.cmd = 0xC) ∧ s.diag = s.bvr

/-- While SUGV = 1 the last command word is an ENCODE, and SUG_ID is its identifier with the seed nibble cleared
(43_synthesizer.md R159). -/
abbrev State.sugvMeans (s : State) : Prop :=
  s.sugv = true → opcodeOf s.cmd = 0xD ∧ s.sugId = idField s.cmd &&& 0xF0FFF

/-- STATUS has a legal value, and each of RECV, TXV, DIAGV and SUGV that is 1 tells the truth about the last command
and about the record, DIAG or SUG_ID. -/
abbrev State.flagsHonest (s : State) : Prop :=
  s.statusLegal ∧ s.recvMeans ∧ s.txvMeans ∧ s.diagvMeans ∧ s.sugvMeans

/-- The outcome kinds a command can end in (60_exceptions.md R201). -/
def kindsOf : Instr → List OutcomeKind
  | .fvVal => [.ok, .frameRejected]
  | .ptDem => [.ok]
  | .ptBase => [.ok]
  | .ptWr _ _ => [.ok, .illegalCommand]
  | .ptFoot => [.ok]
  | .scSel _ => [.ok]
  | .scDec _ => [.ok]
  | .scEnca _ => [.ok]
  | .usDec _ _ => [.ok]
  | .usEnc _ _ _ => [.ok, .unitUnsupported]
  | .cmBuild _ _ _ _ => [.ok]
  | .decode => [.ok, .frameRejected]
  | .encode _ _ _ _ _ _ => [.ok, .unitUnsupported, .consistencyFailure, .argumentMissing]

/-- The condition of 10_state.md R30 at one branch, unit: the canonical off code, where present, is no on
code. The spec does not state it of the tables; a claim that needs it takes it as a premise. -/
def offCodeApart (T : Config.Tables) (t u : Nibble) : Bool :=
  match usEncode T t u false with
  | none => true
  | some sc => !usDecode T t u sc

end Sys2Proof.Machine
end

