-- ==== Sys2Proof/Certificates/Slice0/Obligations.lean ====
section
/-! DEFINITION. The statements for the provers. `exec i s` runs command i at a state whose CMD already holds the
command word (20_memory.md R44); "t = { s with ... }" with the changed fields filled from t is the frame: every
other register, and the model's own fields, are as before. The tables of `exec` are `Config.tables`, of which only
the constraints of 10_state.md R26 to R29 are known, so a statement about them holds for every legal tables. -/

open Sys2Proof Sys2Proof.Machine

/-! ### Encoding -/

/-- Decoding the word of a command gives the command back, every operand at every value (30_encoding.md R66 to
R70, R74). -/
def Obligations.DecodeOfEncode : Prop :=
  ∀ i : Instr, decode (encode i) = .ok i

/-- Encoding a decoded command gives the word back with its ignored fields cleared (R67 to R69, R71). -/
def Obligations.EncodeOfDecode : Prop :=
  ∀ (w : Word) (i : Instr), decode w = .ok i → encode i = w &&& usedBits i

/-- Two words that agree on the fields a command uses decode to the same command (R67 to R69, R71). -/
def Obligations.IgnoredFieldsDoNotDecode : Prop :=
  ∀ (w w' : Word) (i : Instr), decode w = .ok i → w &&& usedBits i = w' &&& usedBits i → decode w' = .ok i

/-- The opcode map (30_encoding.md R70): bits 31:28 alone choose the command or the rejection. -/
def Obligations.OpcodeMap : Prop :=
  ∀ w : Word,
    let opc := (w.extractLsb' 28 4).toNat
    let unit : Nibble := w.extractLsb' 20 4
    let id : Ident := w.extractLsb' 0 20
    (opc = 0x0 → decode w = .error (.reservedOpcode 0x0)) ∧
    (opc = 0x1 → decode w = .ok .fvVal) ∧
    (opc = 0x2 → decode w = .ok .ptDem) ∧
    (opc = 0x3 → decode w = .ok .ptBase) ∧
    (opc = 0x4 → decode w = .ok (.ptWr (w.extractLsb' 5 5) (w.extractLsb' 0 5))) ∧
    (opc = 0x5 → decode w = .ok .ptFoot) ∧
    (opc = 0x6 → decode w = .ok (.scSel id)) ∧
    (opc = 0x7 → decode w = .ok (.scDec id)) ∧
    (opc = 0x8 → decode w = .ok (.scEnca id)) ∧
    (opc = 0x9 → decode w = .ok (.usDec unit id)) ∧
    (opc = 0xA → decode w = .ok (.usEnc (w.getLsbD 25) unit id)) ∧
    (opc = 0xB → decode w = .ok (.cmBuild (w.getLsbD 27) (w.getLsbD 25) unit id)) ∧
    (opc = 0xC → decode w = .ok .decode) ∧
    (opc = 0xD →
      decode w = .ok (.encode (w.getLsbD 27) (w.getLsbD 26) (w.getLsbD 25) (w.getLsbD 24) unit id)) ∧
    (opc = 0xE → decode w = .error (.reservedOpcode 0xE)) ∧
    (opc = 0xF → decode w = .error (.reservedOpcode 0xF))

/-- Words of 30_encoding.md R74 and 95_test_vectors.md, one at least for each family. -/
def Obligations.WrittenOutWordsDecode : Prop :=
  decode 0x10000000 = .ok .fvVal ∧
  decode 0x20000000 = .ok .ptDem ∧
  decode 0x40000086 = .ok (.ptWr 4 6) ∧
  decode 0x4FFFFE97 = .ok (.ptWr 20 23) ∧
  decode 0x7001E9B6 = .ok (.scDec 0x1E9B6) ∧
  decode 0x9021000A = .ok (.usDec 2 0x1000A) ∧
  decode 0xA2210000 = .ok (.usEnc true 2 0x10000) ∧
  decode 0xBA210ABC = .ok (.cmBuild true true 2 0x10ABC) ∧
  decode 0xC0000000 = .ok .decode ∧
  decode 0xDE210ABC = .ok (.encode true true true false 2 0x10ABC) ∧
  decode 0xD7940ABC = .ok (.encode false true true true 9 0x40ABC)

/-! ### The host port and reset -/

/-- A host write of a command word to CMD is, as one step, exactly the decoded command at the state with CMD
written (20_memory.md R44, 10_state.md R17); what the model adds is that the event leaves the port. -/
def Obligations.StepRunsTheDecodedCommand : Prop :=
  ∀ (s : State) (rest : List PortEvent) (v : Nat) (i : Instr),
    s.port = .write 0x34 v :: rest → v < 2 ^ 32 → decode (BitVec.ofNat 32 v) = .ok i →
    step s = exec i { s with port := rest, cmd := BitVec.ofNat 32 v }

/-- Ignored fields are written 0; the illegal words, and that there are no others; ignored fields change nothing
(30_encoding.md R71). -/
def Obligations.IllegalWordsAndNoOthers : Prop :=
  (∀ i : Instr, encode i &&& usedBits i = encode i) ∧
  ∀ (s : State) (rest : List PortEvent) (v : Nat), s.port = .write 0x34 v :: rest → v < 2 ^ 32 →
    let w : Word := BitVec.ofNat 32 v
    let opc := (w.extractLsb' 28 4).toNat
    let start := (w.extractLsb' 5 5).toNat
    let stop := (w.extractLsb' 0 5).toNat
    let illegal := opc = 0x0 ∨ opc = 0xE ∨ opc = 0xF ∨ (opc = 0x4 ∧ (stop < start ∨ 23 < stop))
    (illegal → step s = .next { s with port := rest, cmd := w, status := 0x05 }) ∧
    (¬ illegal → ∃ t, step s = .next t ∧ t.cmd = w ∧ t.code ≠ 5) ∧
    (∀ (v' : Nat) (i : Instr) (t : State), v' < 2 ^ 32 → decode w = .ok i →
      w &&& usedBits i = BitVec.ofNat 32 v' &&& usedBits i → step s = .next t →
      step { s with port := .write 0x34 v' :: rest } = .next { t with cmd := BitVec.ofNat 32 v' })

/-- A host read returns the register at the index and changes no register, whatever the index (20_memory.md R42,
with the map of R49). -/
def Obligations.HostReadReturnsTheRegister : Prop :=
  ∀ (s : State) (rest : List PortEvent) (idx : Nat), s.port = .read idx :: rest → idx < 0x50 →
    ∃ v, step s = .next { s with port := rest, outputs := s.outputs ++ [v] } ∧
      (∀ h : idx < 50, v = s.raw[idx].toNat) ∧
      (idx = 0x32 → v = s.len.toNat) ∧
      (idx = 0x33 → v = s.wv.toNat) ∧
      (idx = 0x34 → v = s.cmd.toNat) ∧
      (idx = 0x35 → v = s.status.toNat) ∧
      (idx = 0x36 → v = s.bvr.toNat) ∧
      (idx = 0x37 → v = s.recId.toNat) ∧
      (idx = 0x38 → v = s.recUnit.toNat) ∧
      (idx = 0x39 → v = s.recState.toNat) ∧
      (idx = 0x3A → v = s.diag.toNat) ∧
      (idx = 0x3B → v = s.sugId.toNat) ∧
      (idx = 0x3C → v = s.tsel.toNat) ∧
      (idx = 0x3D → v = s.resId.toNat) ∧
      (idx = 0x3E → v = s.resState.toNat) ∧
      (idx = 0x3F → v = s.resSc.toNat) ∧
      (∀ c : Fin 16, idx = 0x40 + c.val → v = s.var[c].toNat)

/-- A host write stores in RAW, LEN and WV, executes at CMD, is ignored at a read-only register, and is refused
where the value does not fit (20_memory.md R43). -/
def Obligations.HostWriteStores : Prop :=
  ∀ (s : State) (rest : List PortEvent) (idx v : Nat), s.port = .write idx v :: rest →
    (∀ h : idx < 50, v < 2 ^ 16 →
      step s = .next { s with port := rest, raw := s.raw.set idx (BitVec.ofNat 16 v) }) ∧
    (idx = 0x32 → v < 2 ^ 8 → step s = .next { s with port := rest, len := BitVec.ofNat 8 v }) ∧
    (idx = 0x33 → v < 2 ^ 24 → step s = .next { s with port := rest, wv := BitVec.ofNat 24 v }) ∧
    (idx = 0x34 → v < 2 ^ 32 →
      ∃ t, step s = .next t ∧ t.cmd = BitVec.ofNat 32 v ∧
        step s = executeWord (BitVec.ofNat 32 v) { s with port := rest, cmd := BitVec.ofNat 32 v }) ∧
    (∀ r, regAt idx = some r → 0x35 ≤ idx → v < 2 ^ r.width → step s = .next { s with port := rest }) ∧
    ((idx < 50 ∧ 2 ^ 16 ≤ v) ∨ (idx = 0x32 ∧ 2 ^ 8 ≤ v) ∨ (idx = 0x33 ∧ 2 ^ 24 ≤ v) ∨
        (idx = 0x34 ∧ 2 ^ 32 ≤ v) →
      step s = .refused (.valueDoesNotFit idx v))

/-- A write to a read-only register is ignored whatever the value. For a value too wide this is the model's
reading, log entry 6. -/
def Obligations.ReadOnlyWriteIsIgnored : Prop :=
  ∀ (s : State) (rest : List PortEvent) (idx v : Nat), s.port = .write idx v :: rest → 0x35 ≤ idx →
    idx < 0x50 → step s = .next { s with port := rest }

/-- Register indices 0x50 and above are refused (20_memory.md R45). -/
def Obligations.ReservedIndexIsRefused : Prop :=
  ∀ (s : State) (rest : List PortEvent) (idx v : Nat), 0x50 ≤ idx →
    (s.port = .read idx :: rest → step s = .refused (.reservedIndex idx)) ∧
    (s.port = .write idx v :: rest → step s = .refused (.reservedIndex idx))

/-- Nothing faults, every command word runs, and a step is refused only for a reserved index (20_memory.md R45) or a
value that does not fit a read-write register (R43; 60_exceptions.md R203). That a value too wide for a read-only
register is not refused is the model's reading, log entry 6. -/
def Obligations.StopsOnlyAtTheHostBoundary : Prop :=
  (∀ (w : Word) (s : State), ∃ t, executeWord w s = .next t) ∧
  ∀ s : State, (∀ f, step s ≠ .fault f) ∧
    ∀ r, step s = .refused r →
      (∃ idx rest, s.port = .read idx :: rest ∧ 0x50 ≤ idx ∧ r = .reservedIndex idx) ∨
      (∃ idx v rest, s.port = .write idx v :: rest ∧ 0x50 ≤ idx ∧ r = .reservedIndex idx) ∨
      (∃ idx v rest, s.port = .write idx v :: rest ∧ r = .valueDoesNotFit idx v ∧
        ((idx < 50 ∧ 2 ^ 16 ≤ v) ∨ (idx = 0x32 ∧ 2 ^ 8 ≤ v) ∨ (idx = 0x33 ∧ 2 ^ 24 ≤ v) ∨
          (idx = 0x34 ∧ 2 ^ 32 ≤ v)))

/-- With no event left the core is idle and a step changes nothing. That an idle core still steps is the model's
choice, log entry 5. -/
def Obligations.EmptyPortIsIdle : Prop :=
  ∀ s : State, s.port = [] → step s = .next s

/-- A platform reset clears CMD, STATUS and LEN and executes nothing (70_reset_and_hazards.md R230, 10_state.md
R33). The other registers get the free values of log entry 3, of which nothing is said. -/
def Obligations.PlatformResetClears : Prop :=
  ∀ (s : State) (rest : List PortEvent), s.port = .reset :: rest →
    ∃ t, step s = .next t ∧ t.cmd = 0 ∧ t.status = 0 ∧ t.len = 0 ∧ t.port = rest ∧ t.outputs = s.outputs

/-- The machine right after reset (10_state.md R33). The values of the other registers are the model's, log
entry 2, and nothing is said of them. -/
def Obligations.ResetState : Prop :=
  State.reset.cmd = 0x00000000 ∧ State.reset.status = 0x00 ∧ State.reset.len = 0

/-- "LEN resets to 0 so that FV.VAL and DECODE reject until the host has loaded a capture" (10_state.md R33),
whatever the other registers hold: as commands, as host writes to CMD while LEN is 0, and as the first host write after
a platform reset. -/
def Obligations.RejectsUntilLoaded : Prop :=
  (∀ s : State, s.len = 0 →
    exec .fvVal s = .next { s with status := 0x01 } ∧ exec .decode s = .next { s with status := 0x01 }) ∧
  ∀ (s : State) (rest : List PortEvent) (v : Nat), v < 2 ^ 32 →
    decode (BitVec.ofNat 32 v) = .ok .fvVal ∨ decode (BitVec.ofNat 32 v) = .ok .decode →
    (s.len = 0 → s.port = .write 0x34 v :: rest →
      step s = .next { s with port := rest, cmd := BitVec.ofNat 32 v, status := 0x01 }) ∧
    (s.port = .reset :: .write 0x34 v :: rest →
      ∃ r, step s = .next r ∧
        step r = .next { r with port := rest, cmd := BitVec.ofNat 32 v, status := 0x01 })

/-- LDCAP (30_encoding.md R74): the steps of its writes load the capture, the elements it does not reach keeping
their values. -/
def Obligations.LoadCapture : Prop :=
  ∀ (s : State) (rest : List PortEvent) (n : Nat) (vs : List Nat),
    vs.length = min n 50 → (∀ v ∈ vs, v < 2 ^ 16) → s.port = ldcap n vs ++ rest →
    Sys2Proof.core.run (vs.length + 1) s =
      .next { s with
        port := rest
        len := BitVec.ofNat 8 (min n 255)
        raw := Vector.ofFn fun i : Fin 50 =>
          if h : i.val < vs.length then BitVec.ofNat 16 vs[i.val] else s.raw[i.val] }

/-- Saturating a duration or a length before writing it changes no comparison that the hardware makes, and makes
it fit (10_state.md R13, R14, 70_reset_and_hazards.md R243). -/
def Obligations.SaturationChangesNoComparison : Prop :=
  ∀ d : Nat, saturate 16 d < 2 ^ 16 ∧ saturate 8 d < 2 ^ 8 ∧
    (saturate 16 d > Config.THRESH ↔ d > Config.THRESH) ∧
    (saturate 16 d < Config.FOOT_LO ↔ d < Config.FOOT_LO) ∧
    (saturate 16 d > Config.FOOT_HI ↔ d > Config.FOOT_HI) ∧
    (saturate 8 d = Config.N_RAW ↔ d = Config.N_RAW)

/-! ### The whole machine -/

/-- Every step keeps `State.flagsHonest`: the legal values of STATUS, and what RECV, TXV, DIAGV and SUGV say of the
last command and of the record, DIAG and SUG_ID (10_state.md R18 to R21, 43_synthesizer.md R157, R159,
45_builder_and_decode.md R181, R183, R184, 60_exceptions.md R204). What TXV says of RAW and LEN no step invariant can
say, since a host write to them leaves TXV alone: that is `TxvMeansASequence`. -/
def Obligations.FlagsStayHonest : Prop :=
  ∀ s t : State, s.flagsHonest → step s = .next t → t.flagsHonest

/-- It holds after every reset (10_state.md R33: "no flag claims a result that no command produced"). -/
def Obligations.FlagsHonestAfterReset : Prop :=
  State.reset.flagsHonest ∧ ∀ s : State, s.afterSomeReset → s.flagsHonest

/-- A command that leaves TXV = 1 is an ENCODE, and RAW and LEN then hold a sequence fit to transmit (10_state.md R18,
43_synthesizer.md R160): 50 elements, nominal pairs, 550 and 7200 at the end, accepted by the validator, and carrying
the identifier and the unit of the record. -/
def Obligations.TxvMeansASequence : Prop :=
  ∀ (i : Instr) (s t : State), exec i s = .next t → t.txv = true →
    (∃ on unit id, i = .encode true true on (!on) unit id ∧ t.recId = id ∧ t.recUnit = unit) ∧
    t.len = 50 ∧
    (∀ (p : Nat) (hp : p < 24),
      (t.raw[2 * p] = 550 ∧ t.raw[2 * p + 1] = 1100) ∨ (t.raw[2 * p] = 1100 ∧ t.raw[2 * p + 1] = 550)) ∧
    t.raw[48] = 550 ∧ t.raw[49] = 7200 ∧ validate t.raw t.len = true ∧
    scDecode Config.tables (bvIdent (demod t.raw)) = t.recId ∧ bvUnit (demod t.raw) = t.recUnit

/-- No command's behaviour depends on STATUS (10_state.md R19), and STATUS is rewritten whole (R18). -/
def Obligations.CommandsDoNotReadStatus : Prop :=
  ∀ (i : Instr) (s : State) (x : BitVec 8), exec i { s with status := x } = exec i s

/-- A command ends only in the outcome kinds of its row (60_exceptions.md R201). -/
def Obligations.OutcomeKindsOfACommand : Prop :=
  ∀ (i : Instr) (s t : State), exec i s = .next t → ∃ k ∈ kindsOf i, t.code = kindCode k

/-- Which commands write which register, for every command (10_state.md R13 to R16, R20 to R23): no other command
changes it. -/
def Obligations.OnlyItsCommandsWriteARegister : Prop :=
  ∀ (i : Instr) (s t : State), exec i s = .next t →
    t.wv = s.wv ∧ t.cmd = s.cmd ∧ t.port = s.port ∧ t.outputs = s.outputs ∧ t.resets = s.resets ∧
    (t.raw ≠ s.raw → i = .ptBase ∨ (∃ a b, i = .ptWr a b) ∨ i = .ptFoot ∨
      ∃ a b c d u id, i = .encode a b c d u id) ∧
    (t.len ≠ s.len → ∃ a b c d u id, i = .encode a b c d u id) ∧
    (t.bvr ≠ s.bvr → i = .ptDem ∨ i = .decode) ∧
    (t.recId ≠ s.recId ∨ t.recUnit ≠ s.recUnit ∨ t.recState ≠ s.recState →
      (∃ a b u id, i = .cmBuild a b u id) ∨ i = .decode ∨ ∃ a b c d u id, i = .encode a b c d u id) ∧
    (t.diag ≠ s.diag → (∃ b u id, i = .cmBuild true b u id) ∨ i = .decode) ∧
    (t.sugId ≠ s.sugId → t.code = 3 ∧ ∃ a b c d u id, i = .encode a b c d u id) ∧
    (t.tsel ≠ s.tsel → ∃ id, i = .scSel id) ∧
    (t.resId ≠ s.resId → ∃ id, i = .scDec id) ∧
    (t.resState ≠ s.resState → ∃ u id, i = .usDec u id) ∧
    (t.resSc ≠ s.resSc → ∃ b u id, i = .usEnc b u id) ∧
    (t.var ≠ s.var → ∃ id, i = .scEnca id)

/-- "Writing the same word twice with no other write between leaves the same state after the second execution as
after the first" (20_memory.md R48). -/
def Obligations.RepeatingACommandChangesNothing : Prop :=
  ∀ (i : Instr) (s t : State), exec i s = .next t → exec i t = .next t

/-! ### Pulse timing -/

/-- PT.DEM (40_pulse_timing.md R91). -/
def Obligations.PtDemDemodulates : Prop :=
  (∀ w : Word, (w.extractLsb' 28 4).toNat = 2 → decode w = .ok .ptDem) ∧
  ∀ s : State, ∃ t, exec .ptDem s = .next t ∧
    (∀ (p : Nat) (hp : p < 24), t.bvr.getLsbD (23 - p) = if s.raw[2 * p + 1].toNat > 550 then false else true) ∧
    t = { s with bvr := t.bvr, status := 0x00 }

/-- PT.BASE (40_pulse_timing.md R94). -/
def Obligations.PtBaseWritesTheBaseline : Prop :=
  (∀ w : Word, (w.extractLsb' 28 4).toNat = 3 → decode w = .ok .ptBase) ∧
  ∀ s : State, ∃ t, exec .ptBase s = .next t ∧
    (∀ (p : Nat) (hp : p < 24), t.raw[2 * p] = 550 ∧ t.raw[2 * p + 1] = 1100) ∧
    t.raw[48] = 550 ∧ t.raw[49] = s.raw[49] ∧ demod t.raw = 0 ∧
    t = { s with raw := t.raw, status := 0x00 }

/-- PT.WR: the pairs of the range from WV, nothing else; IllegalCommand on an illegal range
(40_pulse_timing.md R96). -/
def Obligations.PtWrWritesTheRange : Prop :=
  (∀ w : Word, (w.extractLsb' 28 4).toNat = 4 →
    decode w = .ok (.ptWr (w.extractLsb' 5 5) (w.extractLsb' 0 5))) ∧
  ∀ (s : State) (start stop : BitVec 5),
    (start.toNat ≤ stop.toNat → stop.toNat ≤ 23 → ∃ t, exec (.ptWr start stop) s = .next t ∧
      (∀ (p : Nat) (hp : p < 24), start.toNat ≤ p → p ≤ stop.toNat →
        t.raw[2 * p] = (if s.wv.getLsbD (stop.toNat - p) then 1100 else 550) ∧
        t.raw[2 * p + 1] = (if s.wv.getLsbD (stop.toNat - p) then 550 else 1100)) ∧
      (∀ (i : Nat) (hi : i < 50), i < 2 * start.toNat ∨ 2 * stop.toNat + 1 < i → t.raw[i] = s.raw[i]) ∧
      t = { s with raw := t.raw, status := 0x00 }) ∧
    (stop.toNat < start.toNat ∨ 23 < stop.toNat →
      exec (.ptWr start stop) s = .next { s with status := 0x05 })

/-- PT.FOOT, and that the sequence then passes FV.VAL provided LEN = 50 (40_pulse_timing.md R98). -/
def Obligations.PtFootWritesTheFooter : Prop :=
  (∀ w : Word, (w.extractLsb' 28 4).toNat = 5 → decode w = .ok .ptFoot) ∧
  ∀ s : State, ∃ t, exec .ptFoot s = .next t ∧
    t.raw[49] = 7200 ∧ (∀ (i : Nat) (hi : i < 49), t.raw[i] = s.raw[i]) ∧
    (s.len = 50 → exec .fvVal t = .next { t with status := 0x00 }) ∧
    t = { s with raw := t.raw, status := 0x00 }

/-- PT.BASE; PT.WR 0, 23 with WV = v; PT.FOOT (40_pulse_timing.md R99). -/
def Obligations.ModulatorSequence : Prop :=
  ∀ (s : State) (v : Bits24), ∃ a b c,
    exec .ptBase s = .next a ∧ exec (.ptWr 0 23) { a with wv := v } = .next b ∧ exec .ptFoot b = .next c ∧
    (∀ (p : Nat) (hp : p < 24),
      (c.raw[2 * p] = 550 ∧ c.raw[2 * p + 1] = 1100) ∨ (c.raw[2 * p] = 1100 ∧ c.raw[2 * p + 1] = 550)) ∧
    c.raw[48] = 550 ∧ c.raw[49] = 7200 ∧
    exec .fvVal { c with len := 50 } = .next { c with len := 50, status := 0x00 } ∧
    exec .ptDem c = .next { c with bvr := v, status := 0x00 } ∧
    ptWrite (ptBase (ptFoot s.raw)) 0 23 v = c.raw ∧
    ptWrite (ptFoot (ptBase s.raw)) 0 23 v = c.raw ∧
    ptBase (ptWrite s.raw 0 23 v) = ptBase s.raw

/-! ### Cipher -/

/-- SC.SEL (41_cipher.md R111). -/
def Obligations.ScSelSelectsTheBranch : Prop :=
  (∀ w : Word, (w.extractLsb' 28 4).toNat = 6 → decode w = .ok (.scSel (w.extractLsb' 0 20))) ∧
  ∀ (s : State) (id : Ident),
    exec (.scSel id) s =
      .next { s with
        tsel := if (id.extractLsb' 16 4).zeroExtend 5 &&& 0b10011#5 ≠ 0 then 0 else 1
        status := 0x00 }

/-- The partition of the types (41_cipher.md R112). -/
def Obligations.BranchPartition : Prop :=
  ∀ t : Nibble, (selectTable t = .B ↔ t = 0 ∨ t = 4 ∨ t = 8 ∨ t = 12) ∧
    (selectTable t = .A ↔ ¬ (t = 0 ∨ t = 4 ∨ t = 8 ∨ t = 12))

/-- SC.DEC, nibble by nibble (41_cipher.md R113). -/
def Obligations.ScDecDecodesTheChain : Prop :=
  (∀ w : Word, (w.extractLsb' 28 4).toNat = 7 → decode w = .ok (.scDec (w.extractLsb' 0 20))) ∧
  ∀ (s : State) (id : Ident),
    let b := selectTable (id.extractLsb' 16 4)
    ∃ t, exec (.scDec id) s = .next t ∧
      t.resId.extractLsb' 16 4 = id.extractLsb' 16 4 ∧
      t.resId.extractLsb' 12 4 = 0#4 ∧
      t.resId.extractLsb' 8 4 = id.extractLsb' 8 4 ^^^ sbox Config.tables b (id.extractLsb' 12 4) ∧
      t.resId.extractLsb' 4 4 = id.extractLsb' 4 4 ^^^ sbox Config.tables b (id.extractLsb' 8 4) ∧
      t.resId.extractLsb' 0 4 = id.extractLsb' 0 4 ^^^ sbox Config.tables b (id.extractLsb' 4 4) ∧
      t = { s with resId := t.resId, status := 0x00 }

/-- For every encoded seed there is exactly one encoded identifier that decodes to a given decoded one
(41_cipher.md R114 (b)), under every tables. -/
def Obligations.OneEncodingPerSeed : Prop :=
  ∀ (T : Config.Tables) (id : Ident) (c : Nibble), idSeed id = 0 →
    ∃! enc, idSeed enc = c ∧ scDecode T enc = id

/-- SC.ENCA: the variant of every candidate seed at the index of its final nibble, and every register written
(41_cipher.md R115). -/
def Obligations.ScEncaStoresEveryVariant : Prop :=
  (∀ w : Word, (w.extractLsb' 28 4).toNat = 8 → decode w = .ok (.scEnca (w.extractLsb' 0 20))) ∧
  ∀ (s : State) (id : Ident),
    let S := sbox Config.tables (selectTable (idType id))
    let e1 := fun c : Nibble => S c ^^^ idP1 id
    let e2 := fun c => S (e1 c) ^^^ idP2 id
    let e3 := fun c => S (e2 c) ^^^ idP3 id
    ∃ t, exec (.scEnca id) s = .next t ∧
      (∀ c : Nibble, t.var[(e3 c).toNat]'(BitVec.isLt _) = mkId (idType id) c (e1 c) (e2 c) (e3 c)) ∧
      (∀ k : Nibble, ∃! c : Nibble, e3 c = k) ∧
      t = { s with var := t.var, status := 0x00 }

/-- The laws of SC.ENCA (41_cipher.md R116): the indices are the final nibbles, every variant decodes to the
request with its seed cleared, the seed of the request is ignored, and the sixteen seeds are all different. -/
def Obligations.ScEncaLaws : Prop :=
  ∀ (s : State) (id : Ident), ∃ t, exec (.scEnca id) s = .next t ∧
    (∀ k : Fin 16, idP3 t.var[k] = BitVec.ofNat 4 k.val ∧ idType t.var[k] = idType id ∧
      scDecode Config.tables t.var[k] = mkId (idType id) 0 (idP1 id) (idP2 id) (idP3 id)) ∧
    (∀ c : Nibble, exec (.scEnca (mkId (idType id) c (idP1 id) (idP2 id) (idP3 id))) s = .next t) ∧
    (∀ j k : Fin 16, t.var[j] = t.var[k] → j = k) ∧
    (∀ c : Nibble, ∃! k : Fin 16, idSeed t.var[k] = c)

/-! ### Unit and state -/

/-- US.DEC (42_unit_state.md R131). -/
def Obligations.UsDecLooksUpTheOnList : Prop :=
  (∀ w : Word, (w.extractLsb' 28 4).toNat = 9 →
    decode w = .ok (.usDec (w.extractLsb' 20 4) (w.extractLsb' 0 20))) ∧
  ∀ (s : State) (unit : Nibble) (id : Ident),
    exec (.usDec unit id) s =
      .next { s with
        resState :=
          if ∃ j : Fin 4, (usm Config.tables (selectTable (id.extractLsb' 16 4)) unit true)[j] =
            some (id.extractLsb' 0 4) then 1 else 0
        status := 0x00 }

/-- US.ENC: entry 1 of the list, or UnitUnsupported where it is absent (42_unit_state.md R133). -/
def Obligations.UsEncGivesTheCanonicalCode : Prop :=
  (∀ w : Word, (w.extractLsb' 28 4).toNat = 10 →
    decode w = .ok (.usEnc (w.getLsbD 25) (w.extractLsb' 20 4) (w.extractLsb' 0 20))) ∧
  ∀ (s : State) (on : Bool) (unit : Nibble) (id : Ident),
    (∀ sc, (usm Config.tables (selectTable (id.extractLsb' 16 4)) unit on)[1] = some sc →
      exec (.usEnc on unit id) s = .next { s with resSc := sc, status := 0x00 }) ∧
    ((usm Config.tables (selectTable (id.extractLsb' 16 4)) unit on)[1] = none →
      exec (.usEnc on unit id) s = .next { s with status := 0x02 })

/-- The one row the spec gives (10_state.md R28; 95_test_vectors.md S6, S7): under branch A, unit 2, on encodes as
6, and exactly the codes 10, 6, 1 and 5 decode as on. -/
def Obligations.UnitTwoUnderBranchA : Prop :=
  ∀ (s : State) (id : Ident), selectTable (idType id) = .A →
    exec (.usEnc true 2 id) s = .next { s with resSc := 6, status := 0x00 } ∧
    exec (.usDec 2 id) s =
      .next { s with resState := if idP3 id ∈ [10#4, 6#4, 1#4, 5#4] then 1 else 0, status := 0x00 }

/-- Units 8 to 15 under branch B (10_state.md R29, 42_unit_state.md R132, 60_exceptions.md R207): the encoder and
ENCODE report UnitUnsupported for both states, the decoder reports off. -/
def Obligations.HighUnitsUnderBranchB : Prop :=
  ∀ (s : State) (id : Ident) (unit : Nibble) (on : Bool), selectTable (idType id) = .B → 8 ≤ unit.toNat →
    exec (.usEnc on unit id) s = .next { s with status := 0x02 } ∧
    exec (.usDec unit id) s = .next { s with resState := 0, status := 0x00 } ∧
    exec (.encode true true on (!on) unit id) s = .next { s with status := 0x02 }

/-- The code that US.ENC gives for on always decodes as on (42_unit_state.md R134 (d)), and the code for off
decodes as off under the premise of 10_state.md R30, under every tables. -/
def Obligations.CanonicalCodeDecodesBack : Prop :=
  ∀ (T : Config.Tables) (on : Bool) (unit : Nibble) (id code : Ident) (s t : State),
    runUsEnc T on unit id s = t → t.code = 0 → idType code = idType id → idP3 code = t.resSc →
    (on = false → offCodeApart T (idType id) unit = true) →
    (runUsDec T unit code t).resState = BitVec.ofBool on

/-! ### Frame validator -/

/-- FV.VAL: both ends of the window are inside it, and nothing but STATUS changes (44_frame_validator.md R171). -/
def Obligations.FvValJudgesTheFrame : Prop :=
  (∀ w : Word, (w.extractLsb' 28 4).toNat = 1 → decode w = .ok .fvVal) ∧
  ∀ s : State,
    exec .fvVal s =
      .next { s with
        status := if s.len.toNat = 50 ∧ 6480 ≤ s.raw[49].toNat ∧ s.raw[49].toNat ≤ 7920 then 0x00 else 0x01 }

/-! ### Record builder and DECODE -/

/-- CM.BUILD (45_builder_and_decode.md R181). -/
def Obligations.CmBuildWritesTheRecord : Prop :=
  (∀ w : Word, (w.extractLsb' 28 4).toNat = 11 →
    decode w = .ok (.cmBuild (w.getLsbD 27) (w.getLsbD 25) (w.extractLsb' 20 4) (w.extractLsb' 0 20))) ∧
  ∀ (s : State) (bits on : Bool) (unit : Nibble) (id : Ident),
    exec (.cmBuild bits on unit id) s =
      .next { s with
        recId := id
        recUnit := unit
        recState := if on then 1 else 0
        diag := if bits then s.bvr else s.diag
        status := if bits then 0x30 else 0x10 }

/-- DECODE, accepted and rejected (45_builder_and_decode.md R183, R184). -/
def Obligations.DecodeGivesTheRecord : Prop :=
  (∀ w : Word, (w.extractLsb' 28 4).toNat = 12 → decode w = .ok .decode) ∧
  ∀ s : State,
    (s.len.toNat = 50 → 6480 ≤ s.raw[49].toNat → s.raw[49].toNat ≤ 7920 →
      ∃ t, exec .decode s = .next t ∧
        (∀ (p : Nat) (hp : p < 24),
          t.bvr.getLsbD (23 - p) = if s.raw[2 * p + 1].toNat > 550 then false else true) ∧
        (let b := selectTable (t.bvr.extractLsb' 20 4)
         t.recId.extractLsb' 16 4 = t.bvr.extractLsb' 20 4 ∧
         t.recId.extractLsb' 12 4 = 0#4 ∧
         t.recId.extractLsb' 8 4 = t.bvr.extractLsb' 12 4 ^^^ sbox Config.tables b (t.bvr.extractLsb' 16 4) ∧
         t.recId.extractLsb' 4 4 = t.bvr.extractLsb' 8 4 ^^^ sbox Config.tables b (t.bvr.extractLsb' 12 4) ∧
         t.recId.extractLsb' 0 4 = t.bvr.extractLsb' 4 4 ^^^ sbox Config.tables b (t.bvr.extractLsb' 8 4) ∧
         t.recUnit = t.bvr.extractLsb' 0 4 ∧
         t.recState =
           if ∃ j : Fin 4, (usm Config.tables b (t.bvr.extractLsb' 0 4) true)[j] =
             some (t.bvr.extractLsb' 4 4) then 1 else 0) ∧
        t.diag = t.bvr ∧
        t = { s with
          bvr := t.bvr, recId := t.recId, recUnit := t.recUnit, recState := t.recState, diag := t.diag,
          status := 0x30 }) ∧
    (s.len.toNat ≠ 50 ∨ s.raw[49].toNat < 6480 ∨ 7920 < s.raw[49].toNat →
      exec .decode s = .next { s with status := 0x01 })

/-- The record as the host sees it after an accepted DECODE: present, with the diagnostic string the bits as they
were on the air, earliest first (10_state.md R20, 45_builder_and_decode.md R182). -/
def Obligations.DecodedRecordAsSeen : Prop :=
  ∀ s : State, s.len.toNat = 50 → 6480 ≤ s.raw[49].toNat → s.raw[49].toNat ≤ 7920 →
    ∃ t r, exec .decode s = .next t ∧ t.record? = some r ∧ r.identifier = t.recId ∧ r.unit = t.recUnit ∧
      r.state = decide (t.recState = 1) ∧ r.diagnosticBits = some t.diag ∧
      (diagChars t.diag).length = 24 ∧
      ∀ (i : Nat) (hi : i < 24),
        (diagChars t.diag)[i]? = some (if s.raw[2 * i + 1].toNat > 550 then '0' else '1')

/-- DECODE and PT.DEM do not read the leading elements, RAW[48], and PT.DEM not even RAW[49]
(20_memory.md R56, 45_builder_and_decode.md R185 (e)). -/
def Obligations.LeadingElementsAreNotRead : Prop :=
  ∀ (s : State) (raw : RawSeq), (∀ (p : Nat) (hp : p < 24), raw[2 * p + 1] = s.raw[2 * p + 1]) →
    (∃ t, exec .ptDem s = .next t ∧ exec .ptDem { s with raw := raw } = .next { t with raw := raw }) ∧
    (raw[49] = s.raw[49] →
      ∃ t, exec .decode s = .next t ∧ exec .decode { s with raw := raw } = .next { t with raw := raw })

/-- The unit-level commands give what DECODE gives (45_builder_and_decode.md R186). -/
def Obligations.UnitLevelDecodeAgrees : Prop :=
  ∀ s : State, s.len.toNat = 50 → 6480 ≤ s.raw[49].toNat → s.raw[49].toNat ≤ 7920 →
    ∃ t f a b c d, exec .decode s = .next t ∧
      exec .fvVal s = .next f ∧ f.status = 0x00 ∧
      exec .ptDem f = .next a ∧
      exec (.scDec (a.bvr.extractLsb' 4 20)) a = .next b ∧
      exec (.usDec (a.bvr.extractLsb' 0 4) (a.bvr.extractLsb' 4 20)) b = .next c ∧
      exec (.cmBuild true (decide (c.resState = 1)) (a.bvr.extractLsb' 0 4) c.resId) c = .next d ∧
      d.bvr = t.bvr ∧ d.recId = t.recId ∧ d.recUnit = t.recUnit ∧ d.recState = t.recState ∧
      d.diag = t.diag ∧ d.status = 0x30 ∧ t.status = 0x30

/-! ### ENCODE -/

/-- ArgumentMissing, tested before anything else (43_synthesizer.md R152). -/
def Obligations.EncodeArgumentMissing : Prop :=
  ∀ (s : State) (idv unv on off : Bool) (unit : Nibble) (id : Ident),
    idv = false ∨ unv = false ∨ on = off →
    exec (.encode idv unv on off unit id) s = .next { s with status := 0x04 }

/-- The order of the tests (43_synthesizer.md R158): where the unit is unsupported, a missing argument is what is
reported if there is one, and UnitUnsupported otherwise, whatever the seed nibble. -/
def Obligations.EncodeOrderOfTests : Prop :=
  ∀ (s : State) (idv unv on off : Bool) (unit : Nibble) (id : Ident),
    (usm Config.tables (selectTable (idType id)) unit on)[1] = none →
    exec (.encode idv unv on off unit id) s =
      .next { s with status := if idv = false ∨ unv = false ∨ on = off then 0x04 else 0x02 }

/-- A supported request with a zero seed nibble succeeds (43_synthesizer.md R151, R155, R157, R159 (a)): RAW carries
the one encoded identifier that decodes to the request and ends in the canonical code, and the unit. -/
def Obligations.EncodeSynthesizes : Prop :=
  (∀ w : Word, (w.extractLsb' 28 4).toNat = 13 →
    decode w = .ok (.encode (w.getLsbD 27) (w.getLsbD 26) (w.getLsbD 25) (w.getLsbD 24) (w.extractLsb' 20 4)
      (w.extractLsb' 0 20))) ∧
  ∀ (s : State) (on : Bool) (unit : Nibble) (id : Ident) (sc : Nibble), id.extractLsb' 12 4 = 0#4 →
    (usm Config.tables (selectTable (id.extractLsb' 16 4)) unit on)[1] = some sc →
    ∃ t enc, exec (.encode true true on (!on) unit id) s = .next t ∧
      scDecode Config.tables enc = id ∧ enc.extractLsb' 0 4 = sc ∧
      (∀ (p : Nat) (hp : p < 20),
        t.raw[2 * p] = (if enc.getLsbD (19 - p) then 1100 else 550) ∧
        t.raw[2 * p + 1] = (if enc.getLsbD (19 - p) then 550 else 1100)) ∧
      (∀ (p : Nat) (hp : 20 ≤ p ∧ p < 24),
        t.raw[2 * p]'(by omega) = (if unit.getLsbD (23 - p) then 1100 else 550) ∧
        t.raw[2 * p + 1]'(by omega) = (if unit.getLsbD (23 - p) then 550 else 1100)) ∧
      t.raw[48] = 550 ∧ t.raw[49] = 7200 ∧
      t = { s with
        raw := t.raw, len := 50, recId := id, recUnit := unit, recState := if on then 1 else 0,
        status := 0x50 }

/-- A supported request with a non-zero seed nibble ends in ConsistencyFailure, suggests the request with its seed
nibble cleared, and leaves the sequence of that request (43_synthesizer.md R157, R159 (b)). -/
def Obligations.EncodeSuggestsTheClearedId : Prop :=
  ∀ (s : State) (on : Bool) (unit : Nibble) (id : Ident) (sc : Nibble), id.extractLsb' 12 4 ≠ 0#4 →
    (usm Config.tables (selectTable (id.extractLsb' 16 4)) unit on)[1] = some sc →
    ∃ t t', exec (.encode true true on (!on) unit id) s = .next t ∧
      exec (.encode true true on (!on) unit (id &&& 0xF0FFF)) s = .next t' ∧ t'.status = 0x50 ∧
      t = { s with raw := t'.raw, len := 50, sugId := id &&& 0xF0FFF, status := 0x83 }

/-- What ENCODE writes, by outcome (43_synthesizer.md R157): one of the four rows, and nothing but what the row names.
The sequence is of an encoded identifier that ends in the canonical state code of the request and decodes to the
identifier reported. -/
def Obligations.EncodeWritesByOutcome : Prop :=
  ∀ (s : State) (idv unv on off : Bool) (unit : Nibble) (id : Ident),
    ∃ t, exec (.encode idv unv on off unit id) s = .next t ∧
      (t = { s with status := 0x04 } ∨
        t = { s with status := 0x02 } ∨
        ∃ enc, (usm Config.tables (selectTable (idType id)) unit on)[1] = some (idP3 enc) ∧
          ((t = { s with
              raw := synthesize s.raw enc unit, len := 50, sugId := scDecode Config.tables enc, status := 0x83 } ∧
              scDecode Config.tables enc ≠ id) ∨
            (t = { s with
              raw := synthesize s.raw enc unit, len := 50, recId := id, recUnit := unit,
              recState := if on then 1 else 0, status := 0x50 } ∧
              scDecode Config.tables enc = id)))

/-- The round trip (43_synthesizer.md R160 (b), (c); 95_test_vectors.md S1), under every tables: a successful ENCODE
is accepted by the validator and decodes to its own request; for off under the premise of 10_state.md R30.
`exec` runs `runEncode`, `runFvVal` and `runDecode` at `Config.tables`. -/
def Obligations.EncodeDecodeRoundTrip : Prop :=
  ∀ (T : Config.Tables) (s : State) (on : Bool) (unit : Nibble) (id : Ident) (sc : Nibble),
    idSeed id = 0 → (usm T (selectTable (idType id)) unit on)[1] = some sc →
    (on = false → offCodeApart T (idType id) unit = true) →
    let a := runEncode T true true on (!on) unit id s
    let b := runDecode T a
    a.status = 0x50 ∧ (runFvVal a).status = 0x00 ∧
      b.status = 0x30 ∧ b.recId = id ∧ b.recUnit = unit ∧ b.recState = BitVec.ofBool on

/-- The document's scenario (95_test_vectors.md S7): under branch A, unit 2, on, the sequence carries the code 6 at
positions 16 to 19 and the unit 2 at positions 20 to 23, and re-decoded it reports unit 2, state on. -/
def Obligations.EncodeUnitTwoOnScenario : Prop :=
  ∀ (s : State) (id : Ident), selectTable (idType id) = .A → idSeed id = 0 →
    ∃ a b, exec (.encode true true true false 2 id) s = .next a ∧ exec .decode a = .next b ∧
      a.status = 0x50 ∧
      a.raw.toList.drop 32 = [550, 1100, 1100, 550, 1100, 550, 550, 1100, 550, 1100, 550, 1100, 1100, 550,
        550, 1100, 550, 7200] ∧
      b.status = 0x30 ∧ b.recId = id ∧ b.recUnit = 2 ∧ b.recState = 1

/-- The unit-level commands leave RAW and LEN as a successful ENCODE does (43_synthesizer.md R161). -/
def Obligations.UnitLevelEncodeAgrees : Prop :=
  ∀ (s : State) (on : Bool) (unit : Nibble) (id : Ident) (sc : Nibble), idSeed id = 0 →
    (usm Config.tables (selectTable (idType id)) unit on)[1] = some sc →
    ∃ t a b c d e f, exec (.encode true true on (!on) unit id) s = .next t ∧ t.status = 0x50 ∧
      exec (.usEnc on unit id) s = .next a ∧
      exec (.scEnca id) a = .next b ∧
      exec .ptBase b = .next c ∧
      exec (.ptWr 0 19) { c with wv := (b.var[b.resSc.toNat]'(BitVec.isLt _)).zeroExtend 24 } = .next d ∧
      exec (.ptWr 20 23) { d with wv := unit.zeroExtend 24 } = .next e ∧
      exec .ptFoot e = .next f ∧
      { f with len := 50 }.raw = t.raw ∧ { f with len := 50 }.len = t.len ∧
      f.recId = s.recId ∧ f.recUnit = s.recUnit ∧ f.recState = s.recState ∧ f.status = 0x00
end

