-- ==== Sys2Proof/Laws/State.lean ====
section
/-! SUPPORT. The field lemmas of the shared state updates: one per field per update, true by rfl. -/

namespace Sys2Proof.Machine

@[simp] theorem raise_raw (k : OutcomeKind) (s : State) : (raise k s).raw = s.raw := rfl
@[simp] theorem raise_len (k : OutcomeKind) (s : State) : (raise k s).len = s.len := rfl
@[simp] theorem raise_wv (k : OutcomeKind) (s : State) : (raise k s).wv = s.wv := rfl
@[simp] theorem raise_cmd (k : OutcomeKind) (s : State) : (raise k s).cmd = s.cmd := rfl
@[simp] theorem raise_status (k : OutcomeKind) (s : State) : (raise k s).status = statusWord k { sugv := decide (k = .consistencyFailure) } := rfl
@[simp] theorem raise_bvr (k : OutcomeKind) (s : State) : (raise k s).bvr = s.bvr := rfl
@[simp] theorem raise_recId (k : OutcomeKind) (s : State) : (raise k s).recId = s.recId := rfl
@[simp] theorem raise_recUnit (k : OutcomeKind) (s : State) : (raise k s).recUnit = s.recUnit := rfl
@[simp] theorem raise_recState (k : OutcomeKind) (s : State) : (raise k s).recState = s.recState := rfl
@[simp] theorem raise_diag (k : OutcomeKind) (s : State) : (raise k s).diag = s.diag := rfl
@[simp] theorem raise_sugId (k : OutcomeKind) (s : State) : (raise k s).sugId = s.sugId := rfl
@[simp] theorem raise_tsel (k : OutcomeKind) (s : State) : (raise k s).tsel = s.tsel := rfl
@[simp] theorem raise_resId (k : OutcomeKind) (s : State) : (raise k s).resId = s.resId := rfl
@[simp] theorem raise_resState (k : OutcomeKind) (s : State) : (raise k s).resState = s.resState := rfl
@[simp] theorem raise_resSc (k : OutcomeKind) (s : State) : (raise k s).resSc = s.resSc := rfl
@[simp] theorem raise_var (k : OutcomeKind) (s : State) : (raise k s).var = s.var := rfl
@[simp] theorem raise_port (k : OutcomeKind) (s : State) : (raise k s).port = s.port := rfl
@[simp] theorem raise_outputs (k : OutcomeKind) (s : State) : (raise k s).outputs = s.outputs := rfl
@[simp] theorem raise_resets (k : OutcomeKind) (s : State) : (raise k s).resets = s.resets := rfl

@[simp] theorem finish_raw (f : StatusFlags) (s : State) : (finish f s).raw = s.raw := rfl
@[simp] theorem finish_len (f : StatusFlags) (s : State) : (finish f s).len = s.len := rfl
@[simp] theorem finish_wv (f : StatusFlags) (s : State) : (finish f s).wv = s.wv := rfl
@[simp] theorem finish_cmd (f : StatusFlags) (s : State) : (finish f s).cmd = s.cmd := rfl
@[simp] theorem finish_status (f : StatusFlags) (s : State) : (finish f s).status = statusWord .ok f := rfl
@[simp] theorem finish_bvr (f : StatusFlags) (s : State) : (finish f s).bvr = s.bvr := rfl
@[simp] theorem finish_recId (f : StatusFlags) (s : State) : (finish f s).recId = s.recId := rfl
@[simp] theorem finish_recUnit (f : StatusFlags) (s : State) : (finish f s).recUnit = s.recUnit := rfl
@[simp] theorem finish_recState (f : StatusFlags) (s : State) : (finish f s).recState = s.recState := rfl
@[simp] theorem finish_diag (f : StatusFlags) (s : State) : (finish f s).diag = s.diag := rfl
@[simp] theorem finish_sugId (f : StatusFlags) (s : State) : (finish f s).sugId = s.sugId := rfl
@[simp] theorem finish_tsel (f : StatusFlags) (s : State) : (finish f s).tsel = s.tsel := rfl
@[simp] theorem finish_resId (f : StatusFlags) (s : State) : (finish f s).resId = s.resId := rfl
@[simp] theorem finish_resState (f : StatusFlags) (s : State) : (finish f s).resState = s.resState := rfl
@[simp] theorem finish_resSc (f : StatusFlags) (s : State) : (finish f s).resSc = s.resSc := rfl
@[simp] theorem finish_var (f : StatusFlags) (s : State) : (finish f s).var = s.var := rfl
@[simp] theorem finish_port (f : StatusFlags) (s : State) : (finish f s).port = s.port := rfl
@[simp] theorem finish_outputs (f : StatusFlags) (s : State) : (finish f s).outputs = s.outputs := rfl
@[simp] theorem finish_resets (f : StatusFlags) (s : State) : (finish f s).resets = s.resets := rfl

@[simp] theorem writeRecord_raw (r : CommandRecord) (s : State) : (writeRecord r s).raw = s.raw := rfl
@[simp] theorem writeRecord_len (r : CommandRecord) (s : State) : (writeRecord r s).len = s.len := rfl
@[simp] theorem writeRecord_wv (r : CommandRecord) (s : State) : (writeRecord r s).wv = s.wv := rfl
@[simp] theorem writeRecord_cmd (r : CommandRecord) (s : State) : (writeRecord r s).cmd = s.cmd := rfl
@[simp] theorem writeRecord_status (r : CommandRecord) (s : State) : (writeRecord r s).status = s.status := rfl
@[simp] theorem writeRecord_bvr (r : CommandRecord) (s : State) : (writeRecord r s).bvr = s.bvr := rfl
@[simp] theorem writeRecord_recId (r : CommandRecord) (s : State) : (writeRecord r s).recId = r.identifier := rfl
@[simp] theorem writeRecord_recUnit (r : CommandRecord) (s : State) : (writeRecord r s).recUnit = r.unit := rfl
@[simp] theorem writeRecord_recState (r : CommandRecord) (s : State) : (writeRecord r s).recState = BitVec.ofBool r.state := rfl
@[simp] theorem writeRecord_diag (r : CommandRecord) (s : State) : (writeRecord r s).diag = r.diagnosticBits.getD s.diag := rfl
@[simp] theorem writeRecord_sugId (r : CommandRecord) (s : State) : (writeRecord r s).sugId = s.sugId := rfl
@[simp] theorem writeRecord_tsel (r : CommandRecord) (s : State) : (writeRecord r s).tsel = s.tsel := rfl
@[simp] theorem writeRecord_resId (r : CommandRecord) (s : State) : (writeRecord r s).resId = s.resId := rfl
@[simp] theorem writeRecord_resState (r : CommandRecord) (s : State) : (writeRecord r s).resState = s.resState := rfl
@[simp] theorem writeRecord_resSc (r : CommandRecord) (s : State) : (writeRecord r s).resSc = s.resSc := rfl
@[simp] theorem writeRecord_var (r : CommandRecord) (s : State) : (writeRecord r s).var = s.var := rfl
@[simp] theorem writeRecord_port (r : CommandRecord) (s : State) : (writeRecord r s).port = s.port := rfl
@[simp] theorem writeRecord_outputs (r : CommandRecord) (s : State) : (writeRecord r s).outputs = s.outputs := rfl
@[simp] theorem writeRecord_resets (r : CommandRecord) (s : State) : (writeRecord r s).resets = s.resets := rfl

@[simp] theorem afterReset_raw (d : Config.ResetData) (port : List PortEvent) (outputs : List Nat)
    (resets : Nat) : (State.afterReset d port outputs resets).raw = d.raw := rfl
@[simp] theorem afterReset_len (d : Config.ResetData) (port : List PortEvent) (outputs : List Nat)
    (resets : Nat) : (State.afterReset d port outputs resets).len = 0 := rfl
@[simp] theorem afterReset_wv (d : Config.ResetData) (port : List PortEvent) (outputs : List Nat)
    (resets : Nat) : (State.afterReset d port outputs resets).wv = d.wv := rfl
@[simp] theorem afterReset_cmd (d : Config.ResetData) (port : List PortEvent) (outputs : List Nat)
    (resets : Nat) : (State.afterReset d port outputs resets).cmd = 0 := rfl
@[simp] theorem afterReset_status (d : Config.ResetData) (port : List PortEvent) (outputs : List Nat)
    (resets : Nat) : (State.afterReset d port outputs resets).status = 0 := rfl
@[simp] theorem afterReset_bvr (d : Config.ResetData) (port : List PortEvent) (outputs : List Nat)
    (resets : Nat) : (State.afterReset d port outputs resets).bvr = d.bvr := rfl
@[simp] theorem afterReset_recId (d : Config.ResetData) (port : List PortEvent) (outputs : List Nat)
    (resets : Nat) : (State.afterReset d port outputs resets).recId = d.recId := rfl
@[simp] theorem afterReset_recUnit (d : Config.ResetData) (port : List PortEvent) (outputs : List Nat)
    (resets : Nat) : (State.afterReset d port outputs resets).recUnit = d.recUnit := rfl
@[simp] theorem afterReset_recState (d : Config.ResetData) (port : List PortEvent) (outputs : List Nat)
    (resets : Nat) : (State.afterReset d port outputs resets).recState = d.recState := rfl
@[simp] theorem afterReset_diag (d : Config.ResetData) (port : List PortEvent) (outputs : List Nat)
    (resets : Nat) : (State.afterReset d port outputs resets).diag = d.diag := rfl
@[simp] theorem afterReset_sugId (d : Config.ResetData) (port : List PortEvent) (outputs : List Nat)
    (resets : Nat) : (State.afterReset d port outputs resets).sugId = d.sugId := rfl
@[simp] theorem afterReset_tsel (d : Config.ResetData) (port : List PortEvent) (outputs : List Nat)
    (resets : Nat) : (State.afterReset d port outputs resets).tsel = d.tsel := rfl
@[simp] theorem afterReset_resId (d : Config.ResetData) (port : List PortEvent) (outputs : List Nat)
    (resets : Nat) : (State.afterReset d port outputs resets).resId = d.resId := rfl
@[simp] theorem afterReset_resState (d : Config.ResetData) (port : List PortEvent) (outputs : List Nat)
    (resets : Nat) : (State.afterReset d port outputs resets).resState = d.resState := rfl
@[simp] theorem afterReset_resSc (d : Config.ResetData) (port : List PortEvent) (outputs : List Nat)
    (resets : Nat) : (State.afterReset d port outputs resets).resSc = d.resSc := rfl
@[simp] theorem afterReset_var (d : Config.ResetData) (port : List PortEvent) (outputs : List Nat)
    (resets : Nat) : (State.afterReset d port outputs resets).var = d.var := rfl
@[simp] theorem afterReset_port (d : Config.ResetData) (port : List PortEvent) (outputs : List Nat)
    (resets : Nat) : (State.afterReset d port outputs resets).port = port := rfl
@[simp] theorem afterReset_outputs (d : Config.ResetData) (port : List PortEvent) (outputs : List Nat)
    (resets : Nat) : (State.afterReset d port outputs resets).outputs = outputs := rfl
@[simp] theorem afterReset_resets (d : Config.ResetData) (port : List PortEvent) (outputs : List Nat)
    (resets : Nat) : (State.afterReset d port outputs resets).resets = resets := rfl

@[simp] theorem withFetchWord_raw (s : State) (nbits w : Nat) : (s.withFetchWord nbits w).raw = s.raw := rfl
@[simp] theorem withFetchWord_len (s : State) (nbits w : Nat) : (s.withFetchWord nbits w).len = s.len := rfl
@[simp] theorem withFetchWord_wv (s : State) (nbits w : Nat) : (s.withFetchWord nbits w).wv = s.wv := rfl
@[simp] theorem withFetchWord_cmd (s : State) (nbits w : Nat) : (s.withFetchWord nbits w).cmd = s.cmd := rfl
@[simp] theorem withFetchWord_status (s : State) (nbits w : Nat) : (s.withFetchWord nbits w).status = s.status := rfl
@[simp] theorem withFetchWord_bvr (s : State) (nbits w : Nat) : (s.withFetchWord nbits w).bvr = s.bvr := rfl
@[simp] theorem withFetchWord_recId (s : State) (nbits w : Nat) : (s.withFetchWord nbits w).recId = s.recId := rfl
@[simp] theorem withFetchWord_recUnit (s : State) (nbits w : Nat) : (s.withFetchWord nbits w).recUnit = s.recUnit := rfl
@[simp] theorem withFetchWord_recState (s : State) (nbits w : Nat) : (s.withFetchWord nbits w).recState = s.recState := rfl
@[simp] theorem withFetchWord_diag (s : State) (nbits w : Nat) : (s.withFetchWord nbits w).diag = s.diag := rfl
@[simp] theorem withFetchWord_sugId (s : State) (nbits w : Nat) : (s.withFetchWord nbits w).sugId = s.sugId := rfl
@[simp] theorem withFetchWord_tsel (s : State) (nbits w : Nat) : (s.withFetchWord nbits w).tsel = s.tsel := rfl
@[simp] theorem withFetchWord_resId (s : State) (nbits w : Nat) : (s.withFetchWord nbits w).resId = s.resId := rfl
@[simp] theorem withFetchWord_resState (s : State) (nbits w : Nat) : (s.withFetchWord nbits w).resState = s.resState := rfl
@[simp] theorem withFetchWord_resSc (s : State) (nbits w : Nat) : (s.withFetchWord nbits w).resSc = s.resSc := rfl
@[simp] theorem withFetchWord_var (s : State) (nbits w : Nat) : (s.withFetchWord nbits w).var = s.var := rfl
@[simp] theorem withFetchWord_port (s : State) (nbits w : Nat) : (s.withFetchWord nbits w).port = .write 0x34 (tableWord nbits w).toNat :: s.port := rfl
@[simp] theorem withFetchWord_outputs (s : State) (nbits w : Nat) : (s.withFetchWord nbits w).outputs = s.outputs := rfl
@[simp] theorem withFetchWord_resets (s : State) (nbits w : Nat) : (s.withFetchWord nbits w).resets = s.resets := rfl

end Sys2Proof.Machine
end

