-- ==== Sys2Proof/Laws/Operands.lean ====
section
/-! SUPPORT. The values of the named constants, the nibbles of an identifier, positions of a bit vector, and the
table entries. -/

namespace Sys2Proof

@[simp] theorem Config.N_RAW_val : Config.N_RAW = 50 := rfl
@[simp] theorem Config.SHORT_val : Config.SHORT = 550 := rfl
@[simp] theorem Config.LONG_val : Config.LONG = 1100 := rfl
@[simp] theorem Config.FOOTER_val : Config.FOOTER = 7200 := rfl
@[simp] theorem Config.THRESH_val : Config.THRESH = 550 := rfl
@[simp] theorem Config.FOOT_LO_val : Config.FOOT_LO = 6480 := rfl
@[simp] theorem Config.FOOT_HI_val : Config.FOOT_HI = 7920 := rfl

namespace Machine

open Sys2Proof.Config (Tables)

/-! ### Identifiers -/

/-- Bit i of an identifier given by its nibbles (30_encoding.md R65). -/
theorem mkId_getLsbD (t s a b c : Nibble) (i : Nat) :
    (mkId t s a b c).getLsbD i =
      if i < 4 then c.getLsbD i else if i < 8 then b.getLsbD (i - 4) else
        if i < 12 then a.getLsbD (i - 8) else if i < 16 then s.getLsbD (i - 12) else t.getLsbD (i - 16) := by
  refine (@BitVec.getLsbD_append 16 4 i (t ++ s ++ a ++ b : BitVec (4 + 4 + 4 + 4)) c).trans ?_
  by_cases c0 : i < 4
  · simp [c0]
  simp only [c0, if_false]
  refine (@BitVec.getLsbD_append 12 4 (i - 4) (t ++ s ++ a : BitVec (4 + 4 + 4)) b).trans ?_
  by_cases c1 : i < 8
  · simp [c1, show i - 4 < 4 by omega]
  simp only [c1, if_false, show ¬ i - 4 < 4 by omega, show i - 4 - 4 = i - 8 by omega]
  refine (@BitVec.getLsbD_append 8 4 (i - 8) (t ++ s : BitVec (4 + 4)) a).trans ?_
  by_cases c2 : i < 12
  · simp [c2, show i - 8 < 4 by omega]
  simp only [c2, if_false, show ¬ i - 8 < 4 by omega, show i - 8 - 4 = i - 12 by omega]
  refine (@BitVec.getLsbD_append 4 4 (i - 12) t s).trans ?_
  by_cases c3 : i < 16
  · simp [c3, show i - 12 < 4 by omega]
  · simp [c3, show ¬ i - 12 < 4 by omega, show i - 12 - 4 = i - 16 by omega]

@[simp] theorem idType_mkId (t s a b c : Nibble) : idType (mkId t s a b c) = t := by
  apply BitVec.eq_of_getLsbD_eq
  intro i hi
  simp only [idType, BitVec.getLsbD_extractLsb', mkId_getLsbD, hi, decide_true, Bool.true_and]
  simp [show ¬ 16 + i < 4 by omega, show ¬ 16 + i < 8 by omega, show ¬ 16 + i < 12 by omega, show ¬ 16 + i < 16 by omega]

@[simp] theorem idSeed_mkId (t s a b c : Nibble) : idSeed (mkId t s a b c) = s := by
  apply BitVec.eq_of_getLsbD_eq
  intro i hi
  simp only [idSeed, BitVec.getLsbD_extractLsb', mkId_getLsbD, hi, decide_true, Bool.true_and]
  simp [show ¬ 12 + i < 4 by omega, show ¬ 12 + i < 8 by omega, show ¬ 12 + i < 12 by omega, show 12 + i < 16 by omega]

@[simp] theorem idP1_mkId (t s a b c : Nibble) : idP1 (mkId t s a b c) = a := by
  apply BitVec.eq_of_getLsbD_eq
  intro i hi
  simp only [idP1, BitVec.getLsbD_extractLsb', mkId_getLsbD, hi, decide_true, Bool.true_and]
  simp [show ¬ 8 + i < 4 by omega, show ¬ 8 + i < 8 by omega, show 8 + i < 12 by omega]

@[simp] theorem idP2_mkId (t s a b c : Nibble) : idP2 (mkId t s a b c) = b := by
  apply BitVec.eq_of_getLsbD_eq
  intro i hi
  simp only [idP2, BitVec.getLsbD_extractLsb', mkId_getLsbD, hi, decide_true, Bool.true_and]
  simp [show ¬ 4 + i < 4 by omega, show 4 + i < 8 by omega]

@[simp] theorem idP3_mkId (t s a b c : Nibble) : idP3 (mkId t s a b c) = c := by
  apply BitVec.eq_of_getLsbD_eq
  intro i hi
  simp only [idP3, BitVec.getLsbD_extractLsb', mkId_getLsbD, hi, decide_true, Bool.true_and]
  simp [hi]

/-- An identifier is its five nibbles (30_encoding.md R65). -/
theorem mkId_nibbles (id : Ident) :
    mkId (idType id) (idSeed id) (idP1 id) (idP2 id) (idP3 id) = id := by
  apply BitVec.eq_of_getLsbD_eq
  intro i hi
  simp only [mkId_getLsbD, idType, idSeed, idP1, idP2, idP3, BitVec.getLsbD_extractLsb']
  split
  · simp [*]
  split
  · simp [show i - 4 < 4 by omega, show 4 + (i - 4) = i by omega]
  split
  · simp [show i - 8 < 4 by omega, show 8 + (i - 8) = i by omega]
  split
  · simp [show i - 12 < 4 by omega, show 12 + (i - 12) = i by omega]
  · simp [show i - 16 < 4 by omega, show 16 + (i - 16) = i by omega]

/-- Two identifiers with the same nibbles are the same. -/
theorem ident_ext {a b : Ident} (ht : idType a = idType b) (hs : idSeed a = idSeed b)
    (h1 : idP1 a = idP1 b) (h2 : idP2 a = idP2 b) (h3 : idP3 a = idP3 b) : a = b := by
  rw [← mkId_nibbles a, ← mkId_nibbles b, ht, hs, h1, h2, h3]

/-- Clearing the seed nibble with the mask of 43_synthesizer.md R159. -/
theorem and_F0FFF (id : Ident) :
    id &&& 0xF0FFF = mkId (idType id) 0 (idP1 id) (idP2 id) (idP3 id) := by
  apply ident_ext <;> simp only [idType_mkId, idSeed_mkId, idP1_mkId, idP2_mkId, idP3_mkId]
  all_goals
    apply BitVec.eq_of_getLsbD_eq
    intro i hi
    have : i = 0 ∨ i = 1 ∨ i = 2 ∨ i = 3 := by omega
    rcases this with rfl | rfl | rfl | rfl <;>
      simp [idType, idSeed, idP1, idP2, idP3]

/-! ### Bit vectors by position -/

/-- Position p of a packed vector (00_scope.md R8). -/
theorem packPositions_getMsbD : ∀ (n : Nat) (f : Fin n → Bool) (p : Nat),
    (packPositions n f).getMsbD p = if h : p < n then f ⟨p, h⟩ else false
  | 0, f, p => by simp [packPositions]
  | n + 1, f, p => by
    have ih := packPositions_getMsbD n (fun i => f i.castSucc) p
    rw [packPositions, BitVec.getMsbD_concat, ih]
    by_cases h1 : p < n
    · simp [h1, show p < n + 1 by omega]
    · by_cases h2 : p = n
      · subst h2
        simp [Fin.last]
      · simp [h1, h2, show ¬ p < n + 1 by omega]

/-- Two bit vectors with the same positions are the same. -/
theorem bits24_ext {a b : Bits24} (h : ∀ p, p < 24 → bvAt a p = bvAt b p) : a = b :=
  BitVec.eq_of_getMsbD_eq fun p hp => h p hp

/-! ### Positions of a range -/

@[simp] theorem mem_positions {first last : Nat} {p : Fin 24} :
    p ∈ positions first last ↔ first ≤ p.val ∧ p.val ≤ last := by
  simp [positions]

theorem positions_nodup (first last : Nat) : (positions first last).Nodup :=
  (List.nodup_finRange 24).filter _

/-! ### Pairs -/

theorem leadOf_toNat (b : Bool) : (leadOf b).toNat = if b then 1100 else 550 := by
  cases b <;> rfl

theorem trailOf_toNat (b : Bool) : (trailOf b).toNat = if b then 550 else 1100 := by
  cases b <;> rfl

/-! ### Tables -/

theorem sbox_injective (T : Tables) (b : Branch) : Function.Injective (sbox T b) := by
  cases b
  · exact T.sboxA.injective
  · exact T.sboxB.injective

theorem sbox_surjective (T : Tables) (b : Branch) : Function.Surjective (sbox T b) := by
  cases b
  · exact T.sboxA.surjective
  · exact T.sboxB.surjective

/-- USM_A[2][1] = (10, 6, 1, 5) (10_state.md R28). -/
theorem usm_A_two_on (T : Tables) : usm T .A 2 true = usmA2On := by
  simp [usm]

/-- Units 8 to 15 of USM_B are absent (10_state.md R29). -/
theorem usm_B_high (T : Tables) (u : Nibble) (on : Bool) (h : 8 ≤ u.toNat) :
    usm T .B u on = absentList := by
  simp [usm, h]

end Machine

end Sys2Proof
end

