-- ==== Sys2Proof/Laws/Pulse.lean ====
section
/-! SUPPORT. What the pulse-timing functions do, element by element. -/

namespace Sys2Proof.Machine

/-- One element after a pair has been written. -/
theorem writePair_getElem (raw : RawSeq) (p : Fin 24) (b : Bool) (i : Nat) (hi : i < 50) :
    (writePair raw p b)[i] =
      if i = 2 * p.val then leadOf b else if i = 2 * p.val + 1 then trailOf b else raw[i] := by
  unfold writePair
  rw [Vector.getElem_set, Vector.getElem_set]
  by_cases h0 : i = 2 * p.val
  · simp [h0]
  · by_cases h1 : i = 2 * p.val + 1
    · simp [h1]
    · simp [h0, h1, Ne.symm h0, Ne.symm h1]

/-- One element after pairs have been written at a list of positions: the positions in the list take their bit,
everything else keeps its value. -/
theorem writePairs_getElem (g : Fin 24 → Bool) (l : List (Fin 24)) :
    ∀ (raw : RawSeq) (i : Nat) (hi : i < 50),
      (l.foldl (fun r p => writePair r p (g p)) raw)[i] =
        if h : i < 48 then
          if (⟨i / 2, by omega⟩ : Fin 24) ∈ l then
            if i % 2 = 0 then leadOf (g ⟨i / 2, by omega⟩) else trailOf (g ⟨i / 2, by omega⟩)
          else raw[i]
        else raw[i] := by
  induction l with
  | nil => intro raw i hi; simp
  | cons q l ih =>
    intro raw i hi
    rw [List.foldl_cons, ih]
    by_cases h : i < 48
    · simp only [h, dif_pos, List.mem_cons]
      by_cases hm : (⟨i / 2, by omega⟩ : Fin 24) ∈ l
      · simp [hm]
      · by_cases hq : (⟨i / 2, by omega⟩ : Fin 24) = q
        · subst hq
          rw [writePair_getElem]
          by_cases hp : i % 2 = 0
          · have h1 : i = 2 * (i / 2) := by omega
            simp [hm, hp, ← h1]
          · have h1 : ¬ i = 2 * (i / 2) := by omega
            have h2 : i = 2 * (i / 2) + 1 := by omega
            simp [hm, hp, h1, ← h2]
        · have hq' : ¬ i / 2 = q.val := fun e => hq (Fin.ext e)
          rw [writePair_getElem]
          simp [hm, hq, show ¬ i = 2 * q.val by omega, show ¬ i = 2 * q.val + 1 by omega]
    · have := q.isLt
      simp only [h, dif_neg, not_false_iff]
      rw [writePair_getElem]
      simp [show ¬ i = 2 * q.val by omega, show ¬ i = 2 * q.val + 1 by omega]

/-- One element after `pt_write` (40_pulse_timing.md R96). -/
theorem ptWrite_getElem {n : Nat} (raw : RawSeq) (first last : Nat) (v : BitVec n) (i : Nat) (hi : i < 50)
    (hl : last ≤ 23) :
    (ptWrite raw first last v)[i] =
      if first ≤ i / 2 ∧ i / 2 ≤ last then
        if i % 2 = 0 then leadOf (v.getLsbD (last - i / 2)) else trailOf (v.getLsbD (last - i / 2))
      else raw[i] := by
  unfold ptWrite
  rw [writePairs_getElem (fun p => v.getLsbD (last - p.val))]
  by_cases h : i < 48
  · simp [h, mem_positions]
  · simp [h, show ¬ (first ≤ i / 2 ∧ i / 2 ≤ last) by omega]

/-- One element after `pt_base` (40_pulse_timing.md R94). -/
theorem ptBase_getElem (raw : RawSeq) (i : Nat) (hi : i < 50) :
    (ptBase raw)[i] =
      if i = 49 then raw[i] else if i % 2 = 0 then durOf Config.SHORT else durOf Config.LONG := by
  unfold ptBase
  rw [Vector.getElem_set, writePairs_getElem (fun _ => false)]
  by_cases h : i < 48
  · simp [h, mem_positions, show ¬ 48 = i by omega, show ¬ i = 49 by omega, show i / 2 ≤ 23 by omega, leadOf,
      trailOf]
  · by_cases h48 : i = 48
    · subst h48; simp
    · have : i = 49 := by omega
      subst this; simp

/-- One element after `pt_foot` (40_pulse_timing.md R98). -/
theorem ptFoot_getElem (raw : RawSeq) (i : Nat) (hi : i < 50) :
    (ptFoot raw)[i] = if i = 49 then durOf Config.FOOTER else raw[i] := by
  unfold ptFoot
  rw [Vector.getElem_set]
  by_cases h : i = 49
  · simp [h]
  · simp [h, Ne.symm h]

/-- One position of `demod` (40_pulse_timing.md R91). -/
theorem demod_bvAt (raw : RawSeq) (p : Nat) (hp : p < 24) :
    bvAt (demod raw) p = decide (raw[2 * p + 1].toNat ≤ 550) := by
  unfold bvAt demod
  rw [packPositions_getMsbD]
  simp only [hp, dif_pos, trailAt, Config.THRESH_val]
  by_cases h : raw[2 * p + 1].toNat ≤ 550
  · simp [h]
  · simp [h, show 550 < raw[2 * p + 1].toNat by omega]

/-- The threshold separates the two nominal trailing durations (40_pulse_timing.md R97). -/
theorem trailOf_reads_back (b : Bool) : decide ((trailOf b).toNat ≤ 550) = b := by
  cases b <;> rfl

/-- What a write and a demodulation leave at a position (40_pulse_timing.md R97). -/
theorem demod_ptWrite {n : Nat} (raw : RawSeq) (first last : Nat) (v : BitVec n) (hl : last ≤ 23) (p : Nat)
    (hp : p < 24) :
    bvAt (demod (ptWrite raw first last v)) p =
      if first ≤ p ∧ p ≤ last then v.getLsbD (last - p) else bvAt (demod raw) p := by
  rw [demod_bvAt _ _ hp, demod_bvAt _ _ hp, ptWrite_getElem _ _ _ _ _ _ hl]
  have h2 : (2 * p + 1) / 2 = p := by omega
  have h3 : ¬ (2 * p + 1) % 2 = 0 := by omega
  rw [h2]
  by_cases h : first ≤ p ∧ p ≤ last
  · simp only [h, h3, if_false, and_self, if_true, trailOf_reads_back]
  · simp only [h, if_false]

/-- `pt_foot` touches no pair. -/
theorem demod_ptFoot (raw : RawSeq) : demod (ptFoot raw) = demod raw := by
  apply bits24_ext
  intro p hp
  rw [demod_bvAt _ _ hp, demod_bvAt _ _ hp, ptFoot_getElem]
  simp [show ¬ 2 * p + 1 = 49 by omega]

/-- "After PT.BASE, demod(RAW) is all zero" (40_pulse_timing.md R94). -/
theorem demod_ptBase (raw : RawSeq) : demod (ptBase raw) = 0 := by
  apply bits24_ext
  intro p hp
  rw [demod_bvAt _ _ hp, ptBase_getElem]
  simp [show ¬ 2 * p + 1 = 49 by omega, bvAt, durOf]

end Sys2Proof.Machine
end

