-- ==== Sys2Proof/Laws/Cipher.lean ====
section
/-! SUPPORT. The cipher's functions nibble by nibble, and the enumeration of the variants. -/

namespace Sys2Proof.Machine

open Sys2Proof.Config (Tables)

/-- The mask test is the test of the two low bits (41_cipher.md R111, R112). -/
theorem selectTable_eq (t : Nibble) : selectTable t = if t.toNat % 4 = 0 then .B else .A := by
  revert t; decide

@[simp] theorem idType_scDecode (T : Tables) (enc : Ident) : idType (scDecode T enc) = idType enc := by
  simp [scDecode, decodeChain]

@[simp] theorem idSeed_scDecode (T : Tables) (enc : Ident) : idSeed (scDecode T enc) = 0 := by
  simp [scDecode, decodeChain]

/-- The identifier that a decoding gives, written out (41_cipher.md R113). -/
theorem scDecode_eq (T : Tables) (enc : Ident) :
    scDecode T enc = mkId (idType enc) 0
      (idP1 enc ^^^ sbox T (selectTable (idType enc)) (idSeed enc))
      (idP2 enc ^^^ sbox T (selectTable (idType enc)) (idP1 enc))
      (idP3 enc ^^^ sbox T (selectTable (idType enc)) (idP2 enc)) := rfl

/-- The encoded identifier of a candidate seed (41_cipher.md R115). -/
def variantOf (T : Tables) (t d1 d2 d3 c : Nibble) : Ident :=
  let e := encodeChain T (selectTable t) c d1 d2 d3
  mkId t c e.1 e.2.1 e.2.2

/-- The final nibble of a candidate seed, as a function of the seed. -/
def finalNibble (T : Tables) (t d1 d2 d3 c : Nibble) : Nibble :=
  (encodeChain T (selectTable t) c d1 d2 d3).2.2

theorem xor_right_injective (d : Nibble) : Function.Injective fun x : Nibble => x ^^^ d := by
  intro a b h
  have := congrArg (· ^^^ d) h
  simpa [BitVec.xor_assoc] using this

/-- From seed to final nibble the chain is injective (41_cipher.md R116). -/
theorem finalNibble_injective (T : Tables) (t d1 d2 d3 : Nibble) :
    Function.Injective (finalNibble T t d1 d2 d3) := by
  have h (d : Nibble) : Function.Injective fun x => sbox T (selectTable t) x ^^^ d :=
    (xor_right_injective d).comp (sbox_injective T _)
  exact (h d3).comp ((h d2).comp (h d1))

theorem finalNibble_surjective (T : Tables) (t d1 d2 d3 : Nibble) :
    Function.Surjective (finalNibble T t d1 d2 d3) :=
  Finite.surjective_of_injective (finalNibble_injective T t d1 d2 d3)

theorem storeVariant_eq (T : Tables) (t d1 d2 d3 c : Nibble) (var : VarArray) :
    storeVariant T t d1 d2 d3 c var =
      var.set (finalNibble T t d1 d2 d3 c).toNat (variantOf T t d1 d2 d3 c) (BitVec.isLt _) := rfl

/-- Storing the variants of a list of seeds: the entry of a seed in the list is its variant. -/
theorem storeVariants_getElem (T : Tables) (t d1 d2 d3 : Nibble) (l : List (Fin 16)) :
    ∀ (var : VarArray) (c : Fin 16), c ∈ l →
      (l.foldl (fun v c => storeVariant T t d1 d2 d3 (BitVec.ofNat 4 c.val) v) var)[
        (finalNibble T t d1 d2 d3 (BitVec.ofNat 4 c.val)).toNat]'(BitVec.isLt _) =
        variantOf T t d1 d2 d3 (BitVec.ofNat 4 c.val) := by
  induction l using List.reverseRecOn with
  | nil => intro var c h; simp at h
  | append_singleton l q ih =>
    intro var c h
    simp only [List.foldl_append, List.foldl_cons, List.foldl_nil]
    simp only [storeVariant_eq, Vector.getElem_set]
    by_cases e : finalNibble T t d1 d2 d3 (BitVec.ofNat 4 q.val) =
        finalNibble T t d1 d2 d3 (BitVec.ofNat 4 c.val)
    · have := finalNibble_injective T t d1 d2 d3 e
      simp [this]
    · have hne : c ≠ q := fun hc => e (by rw [hc])
      have hmem : c ∈ l := by
        rcases List.mem_append.1 h with h | h
        · exact h
        · exact absurd (List.mem_singleton.1 h) hne
      have e' : ¬ (finalNibble T t d1 d2 d3 (BitVec.ofNat 4 q.val)).toNat =
          (finalNibble T t d1 d2 d3 (BitVec.ofNat 4 c.val)).toNat := fun h => e (BitVec.eq_of_toNat_eq h)
      rw [if_neg e']
      have := ih var c hmem
      simp only [storeVariant_eq] at this
      exact this

/-- The entry at the final nibble of a seed is the variant of that seed (41_cipher.md R115). -/
theorem encodeAllVariants_finalNibble (T : Tables) (t d1 d2 d3 c : Nibble) :
    (encodeAllVariants T t d1 d2 d3)[(finalNibble T t d1 d2 d3 c).toNat]'(BitVec.isLt _) =
      variantOf T t d1 d2 d3 c := by
  have h := storeVariants_getElem T t d1 d2 d3 (List.finRange 16) (Vector.replicate 16 0)
    ⟨c.toNat, c.isLt⟩ (List.mem_finRange _)
  have hc : BitVec.ofNat 4 c.toNat = c := by simp
  simp only [hc] at h
  exact h

/-- Every entry is the variant of some seed whose final nibble is its index (41_cipher.md R116). -/
theorem encodeAllVariants_entry (T : Tables) (t d1 d2 d3 k : Nibble) :
    ∃ c, finalNibble T t d1 d2 d3 c = k ∧
      (encodeAllVariants T t d1 d2 d3)[k.toNat]'k.isLt = variantOf T t d1 d2 d3 c := by
  obtain ⟨c, rfl⟩ := finalNibble_surjective T t d1 d2 d3 k
  exact ⟨c, rfl, encodeAllVariants_finalNibble T t d1 d2 d3 c⟩

/-- Decoding undoes encoding, whatever the seed (41_cipher.md R116). -/
theorem scDecode_variantOf (T : Tables) (t d1 d2 d3 c : Nibble) :
    scDecode T (variantOf T t d1 d2 d3 c) = mkId t 0 d1 d2 d3 := by
  have cancel (x d : Nibble) : x ^^^ d ^^^ x = d := by
    rw [BitVec.xor_comm x d, BitVec.xor_assoc, BitVec.xor_self, BitVec.xor_zero]
  rw [scDecode_eq]
  simp [variantOf, encodeChain, cancel]

end Sys2Proof.Machine
end

