-- ==== Sys2Proof/Laws/Ops.lean ====
section
/-! SUPPORT. The register space: indices and registers correspond, a value read fits its register, and a stored
value is read back. -/

namespace Sys2Proof.Machine

/-- Every register is found at its index (10_state.md R12). -/
theorem regAt_index (r : Reg) : regAt r.index = some r := by
  cases r with
  | raw i => simp [Reg.index, regAt]
  | var c =>
    have := c.isLt
    simp [Reg.index, regAt, show ¬ 64 + c.val < 50 by omega]
    omega
  | _ => rfl

/-- The register found at an index has that index (20_memory.md R49). -/
theorem regAt_some {idx : Nat} {r : Reg} (h : regAt idx = some r) : r.index = idx := by
  unfold regAt at h
  split at h
  · cases h; rfl
  split at h
  · cases h
    simp only [Reg.index]; omega
  · split at h <;> first | (cases h; rfl) | cases h

/-- An index names a register exactly when it is below 0x50 (20_memory.md R40, R45). -/
theorem regAt_eq_none_iff (idx : Nat) : regAt idx = none ↔ 0x50 ≤ idx := by
  constructor
  · intro h
    by_contra hlt
    have hidx : idx < 80 := by omega
    have key : ∀ i : Fin 80, regAt i.val ≠ none := by decide
    exact key ⟨idx, hidx⟩ h
  · intro h
    cases hr : regAt idx with
    | none => rfl
    | some r =>
      have hi := regAt_some hr
      have : r.index < 0x50 := by
        cases r with
        | raw i => have := i.isLt; simp only [Reg.index]; omega
        | var c => have := c.isLt; simp only [Reg.index]; omega
        | _ => decide
      omega

/-- A value read fits the register's width (20_memory.md R42). -/
theorem readReg_lt (r : Reg) (s : State) : readReg r s < 2 ^ r.width := by
  cases r <;> exact BitVec.isLt _

/-- A value that fits is read back where it was stored (20_memory.md R51). -/
theorem readReg_storeReg (r : Reg) (v : Nat) (s : State) (hw : r.writable = true) (hv : v < 2 ^ r.width) :
    readReg r (storeReg r v s) = v := by
  cases r with
  | raw i => simpa [readReg, storeReg, Reg.width] using hv
  | len => simpa [readReg, storeReg, Reg.width] using hv
  | wv => simpa [readReg, storeReg, Reg.width] using hv
  | cmd => simpa [readReg, storeReg, Reg.width] using hv
  | _ => simp [Reg.writable] at hw

/-- Storing to one register leaves every other alone. -/
theorem readReg_storeReg_ne (r q : Reg) (v : Nat) (s : State) (h : q ≠ r) :
    readReg q (storeReg r v s) = readReg q s := by
  cases r with
  | raw i =>
    cases q with
    | raw j =>
      have hij : ¬ i.val = j.val := fun e => h (by rw [Fin.ext e])
      simp [readReg, storeReg, hij]
    | _ => rfl
  | _ => cases q <;> first | rfl | exact absurd rfl h

/-- What `storeReg` never touches. -/
theorem storeReg_frame (r : Reg) (v : Nat) (s : State) :
    storeReg r v s =
      { s with raw := (storeReg r v s).raw, len := (storeReg r v s).len, wv := (storeReg r v s).wv,
               cmd := (storeReg r v s).cmd } := by
  cases r <;> rfl

end Sys2Proof.Machine
end

