-- ==== Sys2Proof/Laws/Step.lean ====
section
/-! SUPPORT. What a step can do, said once. -/

namespace Sys2Proof.Machine

/-- The state a command leaves, for every command (60_exceptions.md R203: every command is total). -/
def commandResult : Instr → State → State
  | .fvVal, s => runFvVal s
  | .ptDem, s => runPtDem s
  | .ptBase, s => runPtBase s
  | .ptWr start stop, s => runPtWr start stop s
  | .ptFoot, s => runPtFoot s
  | .scSel id, s => runScSel id s
  | .scDec id, s => runScDec Config.tables id s
  | .scEnca id, s => runScEnca Config.tables id s
  | .usDec unit id, s => runUsDec Config.tables unit id s
  | .usEnc on unit id, s => runUsEnc Config.tables on unit id s
  | .cmBuild bits on unit id, s => runCmBuild bits on unit id s
  | .decode, s => runDecode Config.tables s
  | .encode idv unv on off unit id, s => runEncode Config.tables idv unv on off unit id s

/-- `exec` answers that state. -/
theorem exec_eq (i : Instr) (s : State) : exec i s = .next (commandResult i s) := by
  cases i <;> rfl

/-- PT.WR with a legal range (40_pulse_timing.md R96). -/
theorem runPtWr_of_legal (start stop : BitVec 5) (s : State) (h1 : start.toNat ≤ stop.toNat)
    (h2 : stop.toNat ≤ 23) :
    runPtWr start stop s = finish {} { s with raw := ptWrite s.raw start.toNat stop.toNat s.wv } := by
  unfold runPtWr
  exact if_neg (by omega)

/-- PT.WR with an illegal range (40_pulse_timing.md R96). -/
theorem runPtWr_of_illegal (start stop : BitVec 5) (s : State)
    (h : stop.toNat < start.toNat ∨ 23 < stop.toNat) :
    runPtWr start stop s = raise .illegalCommand s := by
  unfold runPtWr
  exact if_pos (by omega)

/-- The three ranges that the host sequences of 40_pulse_timing.md R99 and 43_synthesizer.md R161 use. -/
theorem exec_ptWr_0_23 (s : State) :
    exec (.ptWr 0 23) s = .next (finish {} { s with raw := ptWrite s.raw 0 23 s.wv }) :=
  congrArg Host.Outcome.next (runPtWr_of_legal 0 23 s (by decide) (by decide))

theorem exec_ptWr_0_19 (s : State) :
    exec (.ptWr 0 19) s = .next (finish {} { s with raw := ptWrite s.raw 0 19 s.wv }) :=
  congrArg Host.Outcome.next (runPtWr_of_legal 0 19 s (by decide) (by decide))

theorem exec_ptWr_20_23 (s : State) :
    exec (.ptWr 20 23) s = .next (finish {} { s with raw := ptWrite s.raw 20 23 s.wv }) :=
  congrArg Host.Outcome.next (runPtWr_of_legal 20 23 s (by decide) (by decide))

/-- The state a command word leaves, CMD holding it already. -/
def wordResult (w : Word) (s : State) : State :=
  match decode w with
  | .ok i => commandResult i s
  | .error _ => raise .illegalCommand s

theorem executeWord_eq (w : Word) (s : State) : executeWord w s = .next (wordResult w s) := by
  unfold executeWord wordResult
  cases decode w with
  | ok i => exact exec_eq i s
  | error e => rfl

/-- A write to CMD of a value that fits (20_memory.md R44). -/
theorem hostWrite_cmd (v : Nat) (s : State) (hv : v < 2 ^ 32) :
    hostWrite 0x34 v s =
      .next (wordResult (BitVec.ofNat 32 v) { s with cmd := BitVec.ofNat 32 v }) := by
  have h : regAt 0x34 = some .cmd := rfl
  simp only [hostWrite, h, writeReg, Reg.writable, Reg.width, hv, if_true, storeReg]
  exact executeWord_eq _ _

/-- Everything a step can do when it answers a next state: nothing with an empty port; a reset; a read; a write
to a read-only register, ignored; a write to RAW, LEN or WV; a write to CMD. -/
theorem step_cases {s t : State} (h : step s = .next t) :
    (s.port = [] ∧ t = s) ∨
    (∃ rest, s.port = .reset :: rest ∧ t = platformReset { s with port := rest }) ∨
    (∃ idx r rest, s.port = .read idx :: rest ∧ regAt idx = some r ∧
      t = { s with port := rest, outputs := s.outputs ++ [readReg r s] }) ∨
    (∃ idx v r rest, s.port = .write idx v :: rest ∧ regAt idx = some r ∧ r.writable = false ∧
      t = { s with port := rest }) ∨
    (∃ idx v r rest, s.port = .write idx v :: rest ∧ regAt idx = some r ∧ r.writable = true ∧ r ≠ .cmd ∧
      v < 2 ^ r.width ∧ t = storeReg r v { s with port := rest }) ∨
    (∃ v rest, s.port = .write 0x34 v :: rest ∧ v < 2 ^ 32 ∧
      t = wordResult (BitVec.ofNat 32 v) { s with port := rest, cmd := BitVec.ofNat 32 v }) := by
  unfold step at h
  split at h
  · next hp => cases h; exact .inl ⟨hp, rfl⟩
  · next e rest hp =>
    cases e with
    | reset =>
      cases h
      exact .inr (.inl ⟨rest, hp, rfl⟩)
    | read idx =>
      simp only [portEvent, hostRead] at h
      split at h
      · cases h
      · next r hr =>
        cases h
        refine .inr (.inr (.inl ⟨idx, r, rest, hp, hr, ?_⟩))
        cases r <;> rfl
    | write idx v =>
      simp only [portEvent, hostWrite] at h
      split at h
      · cases h
      · next r hr =>
        simp only [writeReg] at h
        split at h
        · next hw =>
          split at h
          · next hv =>
            split at h
            · next hc =>
              subst hc
              have hidx := regAt_some hr
              simp only [Reg.index] at hidx
              subst hidx
              rw [executeWord_eq] at h
              cases h
              exact .inr (.inr (.inr (.inr (.inr ⟨v, rest, hp, hv, rfl⟩))))
            · next hc =>
              cases h
              exact .inr (.inr (.inr (.inr (.inl ⟨idx, v, r, rest, hp, hr, hw, hc, hv, rfl⟩))))
          · cases h
        · next hw =>
          cases h
          exact .inr (.inr (.inr (.inl ⟨idx, v, r, rest, hp, hr, by simpa using hw, rfl⟩)))

/-- A run goes on from the state its first step answers. -/
theorem run_succ_of_step {s t : State} (h : step s = .next t) (n : Nat) :
    core.run (n + 1) s = core.run n t := by
  have h' : core.step s = Host.Outcome.next t := h
  simp only [Host.Core.run, h']

/-- A run of two parts. -/
theorem run_add {m : Nat} {s t : State} (h : core.run m s = .next t) (n : Nat) :
    core.run (m + n) s = core.run n t := by
  induction m generalizing s with
  | zero =>
    cases h
    rw [Nat.zero_add]
  | succ m ih =>
    rw [Nat.succ_add]
    cases hs : core.step s with
    | next s' =>
      rw [run_succ_of_step hs]
      rw [run_succ_of_step hs] at h
      exact ih h
    | fault r =>
      simp only [Host.Core.run, hs] at h
      cases h
    | refused r =>
      simp only [Host.Core.run, hs] at h
      cases h

end Sys2Proof.Machine
end

