-- ==== Sys2Proof/Laws/Synthesizer.lean ====
section
/-! SUPPORT. What the synthesized sequence is and what it demodulates to, and the variant picked. -/

namespace Sys2Proof.Machine

open Sys2Proof.Config (Tables)

/-- One element of a synthesized sequence (43_synthesizer.md R155). -/
theorem synthesize_getElem (raw : RawSeq) (enc : Ident) (unit : Nibble) (i : Nat) (hi : i < 50) :
    (synthesize raw enc unit)[i] =
      if i = 49 then durOf Config.FOOTER
      else if i = 48 then durOf Config.SHORT
      else if i / 2 ≤ 19 then
        if i % 2 = 0 then leadOf (enc.getLsbD (19 - i / 2)) else trailOf (enc.getLsbD (19 - i / 2))
      else
        if i % 2 = 0 then leadOf (unit.getLsbD (23 - i / 2)) else trailOf (unit.getLsbD (23 - i / 2)) := by
  unfold synthesize
  rw [ptFoot_getElem, ptWrite_getElem _ _ _ _ _ _ (by omega), ptWrite_getElem _ _ _ _ _ _ (by omega),
    ptBase_getElem]
  by_cases h49 : i = 49
  · simp [h49]
  by_cases h48 : i = 48
  · subst h48; simp
  by_cases h19 : i / 2 ≤ 19
  · simp [h49, h48, h19, show ¬ 20 ≤ i / 2 by omega]
  · simp [h49, h48, h19, show 20 ≤ i / 2 by omega, show i / 2 ≤ 23 by omega]

/-- One position of the bit vector of a synthesized sequence. -/
theorem demod_synthesize_bvAt (raw : RawSeq) (enc : Ident) (unit : Nibble) (p : Nat) (hp : p < 24) :
    bvAt (demod (synthesize raw enc unit)) p =
      if p ≤ 19 then enc.getLsbD (19 - p) else unit.getLsbD (23 - p) := by
  rw [demod_bvAt _ _ hp, synthesize_getElem]
  have h2 : (2 * p + 1) / 2 = p := by omega
  have h3 : ¬ (2 * p + 1) % 2 = 0 := by omega
  simp only [h2, h3, show ¬ 2 * p + 1 = 49 by omega, show ¬ 2 * p + 1 = 48 by omega, if_false]
  split <;> exact trailOf_reads_back _

/-- Bits of the fields of a bit vector by position (10_state.md R16). -/
theorem bvIdent_getLsbD (v : Bits24) (i : Nat) (hi : i < 20) :
    (bvIdent v).getLsbD i = bvAt v (19 - i) := by
  simp [bvIdent, bvAt, BitVec.getMsbD, hi, show 23 - (19 - i) = 4 + i by omega, show 19 - i < 24 by omega]

theorem bvUnit_getLsbD (v : Bits24) (i : Nat) (hi : i < 4) :
    (bvUnit v).getLsbD i = bvAt v (23 - i) := by
  simp [bvUnit, bvAt, BitVec.getMsbD, hi, show 23 - (23 - i) = i by omega, show 23 - i < 24 by omega]

/-- A synthesized sequence carries its encoded identifier. -/
theorem bvIdent_demod_synthesize (raw : RawSeq) (enc : Ident) (unit : Nibble) :
    bvIdent (demod (synthesize raw enc unit)) = enc := by
  apply BitVec.eq_of_getLsbD_eq
  intro i hi
  rw [bvIdent_getLsbD _ _ hi, demod_synthesize_bvAt _ _ _ _ (by omega)]
  simp [show 19 - i ≤ 19 by omega, show 19 - (19 - i) = i by omega]

/-- A synthesized sequence carries its unit. -/
theorem bvUnit_demod_synthesize (raw : RawSeq) (enc : Ident) (unit : Nibble) :
    bvUnit (demod (synthesize raw enc unit)) = unit := by
  apply BitVec.eq_of_getLsbD_eq
  intro i hi
  rw [bvUnit_getLsbD _ _ hi, demod_synthesize_bvAt _ _ _ _ (by omega)]
  simp [show ¬ 23 - i ≤ 19 by omega, show 23 - (23 - i) = i by omega]

/-- The variant picked is that of some seed, and its last nibble is the state code (43_synthesizer.md R154). -/
theorem pickVariant_spec (T : Tables) (id : Ident) (sc : Nibble) :
    ∃ c, pickVariant T id sc = variantOf T (idType id) (idP1 id) (idP2 id) (idP3 id) c ∧
      idP3 (pickVariant T id sc) = sc ∧ idType (pickVariant T id sc) = idType id ∧
      idSeed (pickVariant T id sc) = c := by
  obtain ⟨c, hc, he⟩ := encodeAllVariants_entry T (idType id) (idP1 id) (idP2 id) (idP3 id) sc
  refine ⟨c, he, ?_, ?_, ?_⟩ <;> unfold pickVariant <;> rw [he]
  · exact (idP3_mkId _ _ _ _ _).trans hc
  · simp [variantOf]
  · simp [variantOf]

/-- Decoding the variant picked gives the request with its seed nibble cleared (43_synthesizer.md R159). -/
theorem scDecode_pickVariant (T : Tables) (id : Ident) (sc : Nibble) :
    scDecode T (pickVariant T id sc) = mkId (idType id) 0 (idP1 id) (idP2 id) (idP3 id) := by
  obtain ⟨c, hc, -⟩ := pickVariant_spec T id sc
  rw [hc, scDecode_variantOf]

/-- What the verification recovers from the sequence just written. -/
theorem recovered_eq (T : Tables) (raw : RawSeq) (unit : Nibble) (id : Ident) (sc : Nibble) :
    scDecode T (bvIdent (demod (synthesize raw (pickVariant T id sc) unit))) =
      mkId (idType id) 0 (idP1 id) (idP2 id) (idP3 id) := by
  rw [bvIdent_demod_synthesize, scDecode_pickVariant]

/-- Clearing the seed nibble changes nothing exactly when it is zero already. -/
theorem cleared_eq_iff (id : Ident) :
    mkId (idType id) 0 (idP1 id) (idP2 id) (idP3 id) = id ↔ idSeed id = 0 := by
  constructor
  · intro h
    rw [← h]
    simp
  · intro h
    conv_rhs => rw [← mkId_nibbles id, h]

end Sys2Proof.Machine
end

