-- ==== Sys2Proof/Laws/Commands.lean ====
section
/-! SUPPORT. One lemma per shared function about everything it can answer: the fields of STATUS, the validator, the
look-ups in the unit/state tables, and the ways DECODE and ENCODE end. -/

namespace Sys2Proof.Machine

open Sys2Proof.Config (Tables)

/-! ### STATUS -/

/-- The fields of STATUS as a command writes it (10_state.md R18). -/
theorem statusWord_fields (k : OutcomeKind) (f : StatusFlags) :
    (statusWord k f).extractLsb' 0 4 = kindCode k ∧ (statusWord k f).getLsbD 4 = f.recv ∧
      (statusWord k f).getLsbD 5 = f.diagv ∧ (statusWord k f).getLsbD 6 = f.txv ∧
      (statusWord k f).getLsbD 7 = f.sugv := by
  rcases f with ⟨a, b, c, d⟩
  cases k <;> revert a b c d <;> decide

@[simp] theorem finish_code (f : StatusFlags) (s : State) : (finish f s).code = 0 :=
  (statusWord_fields .ok f).1

@[simp] theorem finish_recv (f : StatusFlags) (s : State) : (finish f s).recv = f.recv :=
  (statusWord_fields .ok f).2.1

@[simp] theorem finish_diagv (f : StatusFlags) (s : State) : (finish f s).diagv = f.diagv :=
  (statusWord_fields .ok f).2.2.1

@[simp] theorem finish_txv (f : StatusFlags) (s : State) : (finish f s).txv = f.txv :=
  (statusWord_fields .ok f).2.2.2.1

@[simp] theorem finish_sugv (f : StatusFlags) (s : State) : (finish f s).sugv = f.sugv :=
  (statusWord_fields .ok f).2.2.2.2

@[simp] theorem raise_code (k : OutcomeKind) (s : State) : (raise k s).code = kindCode k :=
  (statusWord_fields k _).1

@[simp] theorem raise_recv (k : OutcomeKind) (s : State) : (raise k s).recv = false :=
  (statusWord_fields k _).2.1

@[simp] theorem raise_diagv (k : OutcomeKind) (s : State) : (raise k s).diagv = false :=
  (statusWord_fields k _).2.2.1

@[simp] theorem raise_txv (k : OutcomeKind) (s : State) : (raise k s).txv = false :=
  (statusWord_fields k _).2.2.2.1

@[simp] theorem raise_sugv (k : OutcomeKind) (s : State) :
    (raise k s).sugv = decide (k = .consistencyFailure) :=
  (statusWord_fields k _).2.2.2.2

/-! ### Pulses -/

/-- The first element of a pair, as written (30_encoding.md R60). -/
theorem leadOf_eq (b : Bool) : leadOf b = if b then 1100 else 550 := by cases b <;> rfl

/-- The second element of a pair, as written (30_encoding.md R60). -/
theorem trailOf_eq (b : Bool) : trailOf b = if b then 550 else 1100 := by cases b <;> rfl

/-- One bit of the register image of a demodulation (40_pulse_timing.md R91, 10_state.md R16). -/
theorem demod_getLsbD (raw : RawSeq) (p : Nat) (hp : p < 24) :
    (demod raw).getLsbD (23 - p) = if raw[2 * p + 1].toNat > 550 then false else true := by
  have h := demod_bvAt raw p hp
  simp only [bvAt, BitVec.getMsbD, hp, decide_true, Bool.true_and] at h
  rw [show 24 - 1 - p = 23 - p by omega] at h
  rw [h]
  by_cases h : raw[2 * p + 1].toNat ≤ 550
  · simp [h]
  · simp [h, show 550 < raw[2 * p + 1].toNat by omega]

/-- Demodulation reads the trailing elements only (40_pulse_timing.md R91). -/
theorem demod_congr {r r' : RawSeq} (h : ∀ (p : Nat) (hp : p < 24), r[2 * p + 1] = r'[2 * p + 1]) :
    demod r = demod r' := by
  apply bits24_ext
  intro p hp
  rw [demod_bvAt _ _ hp, demod_bvAt _ _ hp, h p hp]

/-- Writing all the positions and demodulating gives the value written (40_pulse_timing.md R97). -/
theorem demod_ptWrite_all (raw : RawSeq) (v : Bits24) : demod (ptWrite raw 0 23 v) = v := by
  apply bits24_ext
  intro p hp
  rw [demod_ptWrite _ _ _ _ (by omega) _ hp]
  simp [show p ≤ 23 by omega, bvAt, BitVec.getMsbD, hp]

/-- A nibble of the encoded identifier, as a field of the register image (10_state.md R16). -/
theorem bvIdent_extractLsb' (v : Bits24) (lo : Nat) (h : lo + 4 ≤ 20) :
    (bvIdent v).extractLsb' lo 4 = v.extractLsb' (4 + lo) 4 := by
  apply BitVec.eq_of_getLsbD_eq
  intro i hi
  simp [bvIdent, hi, show lo + i < 20 by omega, Nat.add_assoc]

/-! ### The validator -/

/-- When a frame is accepted (44_frame_validator.md R171). -/
theorem validate_eq_true_iff (raw : RawSeq) (len : BitVec 8) :
    validate raw len = true ↔ len.toNat = 50 ∧ 6480 ≤ raw[49].toNat ∧ raw[49].toNat ≤ 7920 := by
  unfold validate
  simp only [Config.N_RAW_val, Config.FOOT_LO_val, Config.FOOT_HI_val]
  by_cases h1 : len.toNat = 50
  · by_cases h2 : raw[49].toNat < 6480
    · simp [h1, h2]
    · by_cases h3 : raw[49].toNat > 7920
      · simp [h1, h2, h3]
      · simp [h1, h2, h3]; omega
  · simp [h1]

/-! ### The unit/state tables -/

/-- A code is in a list when some entry is that code (42_unit_state.md R131). -/
theorem codeList_any_iff (l : CodeList) (c : Nibble) :
    (l.toList.any fun e => decide (e = some c)) = true ↔ ∃ j : Fin 4, l[j] = some c := by
  rw [List.any_eq_true]
  constructor
  · rintro ⟨e, he, h⟩
    rw [Vector.mem_toList_iff, Vector.mem_iff_getElem] at he
    obtain ⟨i, hi, rfl⟩ := he
    exact ⟨⟨i, hi⟩, by simpa using h⟩
  · rintro ⟨j, h⟩
    exact ⟨l[j], by simp, by simpa using h⟩

/-- What US.DEC puts into RES_STATE (42_unit_state.md R131). -/
theorem ofBool_usDecode (T : Tables) (t u c : Nibble) :
    BitVec.ofBool (usDecode T t u c) =
      if ∃ j : Fin 4, (usm T (selectTable t) u true)[j] = some c then 1 else 0 := by
  have h := codeList_any_iff (usm T (selectTable t) u true) c
  unfold usDecode
  by_cases hc : ∃ j : Fin 4, (usm T (selectTable t) u true)[j] = some c
  · rw [if_pos hc, h.2 hc]; rfl
  · rw [if_neg hc, Bool.eq_false_iff.2 fun x => hc (h.1 x)]; rfl

theorem runUsEnc_of_some {T : Tables} {on : Bool} {unit : Nibble} {id : Ident} {sc : Nibble}
    (h : usEncode T (idType id) unit on = some sc) (s : State) :
    runUsEnc T on unit id s = finish {} { s with resSc := sc } := by
  simp only [runUsEnc, h]

theorem runUsEnc_of_none {T : Tables} {on : Bool} {unit : Nibble} {id : Ident}
    (h : usEncode T (idType id) unit on = none) (s : State) :
    runUsEnc T on unit id s = raise .unitUnsupported s := by
  simp only [runUsEnc, h]

/-! ### DECODE -/

/-- The record of an accepted frame (45_builder_and_decode.md R183). -/
def frameRecord (T : Tables) (v : Bits24) : CommandRecord :=
  build (scDecode T (bvIdent v)) (bvUnit v) (usDecode T (idType (bvIdent v)) (bvUnit v) (idP3 (bvIdent v)))
    (some v)

theorem runDecode_of_accepted (T : Tables) (s : State) (h : validate s.raw s.len = true) :
    runDecode T s =
      finish { recv := true, diagv := true }
        (writeRecord (frameRecord T (demod s.raw)) { s with bvr := demod s.raw }) := by
  simp only [runDecode, decodeFrame, h, if_true]; rfl

theorem runDecode_of_rejected (T : Tables) (s : State) (h : validate s.raw s.len = false) :
    runDecode T s = raise .frameRejected s := by
  simp only [runDecode, decodeFrame, h]; rfl

/-! ### ENCODE -/

theorem runEncode_of_argumentMissing (T : Tables) (idv unv on off : Bool) (unit : Nibble) (id : Ident)
    (s : State) (h : idv = false ∨ unv = false ∨ on = off) :
    runEncode T idv unv on off unit id s = raise .argumentMissing s := by
  unfold runEncode
  exact if_pos h

theorem runEncode_of_unsupported (T : Tables) (on : Bool) (unit : Nibble) (id : Ident) (s : State)
    (h : usEncode T (idType id) unit on = none) :
    runEncode T true true on (!on) unit id s = raise .unitUnsupported s := by
  unfold runEncode
  rw [if_neg (by cases on <;> simp), h]

/-- A supported request with a zero seed nibble (43_synthesizer.md R157, R159). -/
theorem runEncode_of_cleared (T : Tables) (on : Bool) (unit : Nibble) (id : Ident) (sc : Nibble) (s : State)
    (h : usEncode T (idType id) unit on = some sc) (hid : idSeed id = 0) :
    runEncode T true true on (!on) unit id s =
      finish { recv := true, txv := true } (writeRecord (build id unit on none)
        { s with raw := synthesize s.raw (pickVariant T id sc) unit, len := 50 }) := by
  unfold runEncode
  rw [if_neg (by cases on <;> simp), h]
  simp only [encodeWith, recovered_eq, (cleared_eq_iff id).2 hid]
  exact if_neg (by simp)

/-- A supported request with a seed nibble that is not zero (43_synthesizer.md R157, R159). -/
theorem runEncode_of_seed (T : Tables) (on : Bool) (unit : Nibble) (id : Ident) (sc : Nibble) (s : State)
    (h : usEncode T (idType id) unit on = some sc) (hid : idSeed id ≠ 0) :
    runEncode T true true on (!on) unit id s =
      raise .consistencyFailure
        { s with raw := synthesize s.raw (pickVariant T id sc) unit, len := 50,
                 sugId := mkId (idType id) 0 (idP1 id) (idP2 id) (idP3 id) } := by
  unfold runEncode
  rw [if_neg (by cases on <;> simp), h]
  simp only [encodeWith, recovered_eq]
  exact if_pos fun e => hid ((cleared_eq_iff id).1 e)

/-- The variant picked depends on the seed nibble of the request in no way (43_synthesizer.md R153). -/
theorem pickVariant_cleared (T : Tables) (id : Ident) (sc : Nibble) :
    pickVariant T (mkId (idType id) 0 (idP1 id) (idP2 id) (idP3 id)) sc = pickVariant T id sc := by
  simp only [pickVariant, idType_mkId, idP1_mkId, idP2_mkId, idP3_mkId]

/-- A synthesized sequence of 50 elements is accepted (43_synthesizer.md R160). -/
theorem validate_synthesize (raw : RawSeq) (enc : Ident) (unit : Nibble) :
    validate (synthesize raw enc unit) 50 = true := by
  rw [validate_eq_true_iff, synthesize_getElem, if_pos rfl]
  decide

end Sys2Proof.Machine
end

