-- ==== Sys2Proof/Laws/Encoding.lean ====
section
/-! SUPPORT. The bits of the words of the three formats (30_encoding.md R67 to R69), and the bits of a field. -/

namespace Sys2Proof

theorem wordField_getLsbD (w : Word) (lo n i : Nat) :
    (wordField w lo n).getLsbD i = (decide (i < n) && w.getLsbD (lo + i)) := by
  simp [wordField]

theorem wordZ_getLsbD (opc : Nibble) (i : Nat) :
    (wordZ opc).getLsbD i = if i < 28 then false else opc.getLsbD (i - 28) := by
  refine (@BitVec.getLsbD_append 4 28 i opc 0#28).trans ?_
  simp

theorem wordW_getLsbD (opc : Nibble) (start stop : BitVec 5) (i : Nat) :
    (wordW opc start stop).getLsbD i =
      if i < 5 then stop.getLsbD i else if i < 10 then start.getLsbD (i - 5) else
        if i < 28 then false else opc.getLsbD (i - 28) := by
  refine (@BitVec.getLsbD_append 27 5 i (opc ++ 0#18 ++ start : BitVec (4 + 18 + 5)) stop).trans ?_
  by_cases c0 : i < 5
  · simp [c0]
  simp only [c0, if_false]
  refine (@BitVec.getLsbD_append 22 5 (i - 5) (opc ++ 0#18 : BitVec (4 + 18)) start).trans ?_
  by_cases c1 : i < 10
  · simp [c1, show i - 5 < 5 by omega]
  simp only [c1, if_false, show ¬ i - 5 < 5 by omega, show i - 5 - 5 = i - 10 by omega]
  refine (@BitVec.getLsbD_append 4 18 (i - 10) opc 0#18).trans ?_
  by_cases c2 : i < 28
  · simp [c2, show i - 10 < 18 by omega]
  · simp [c2, show ¬ i - 10 < 18 by omega, show i - 10 - 18 = i - 28 by omega]

theorem wordR_getLsbD (opc : Nibble) (f27 f26 on off : Bool) (unit : Nibble) (id : Ident) (i : Nat) :
    (wordR opc f27 f26 on off unit id).getLsbD i =
      if i < 20 then id.getLsbD i else if i < 24 then unit.getLsbD (i - 20) else
        if i = 24 then off else if i = 25 then on else if i = 26 then f26 else if i = 27 then f27 else
          opc.getLsbD (i - 28) := by
  have one (b : Bool) (j : Nat) (h : j = 0) : (BitVec.ofBool b).getLsbD j = b := by
    subst h; cases b <;> rfl
  refine (@BitVec.getLsbD_append 12 20 i (opc ++ BitVec.ofBool f27 ++ BitVec.ofBool f26 ++ BitVec.ofBool on ++
    BitVec.ofBool off ++ unit : BitVec (4 + 1 + 1 + 1 + 1 + 4)) id).trans ?_
  by_cases c0 : i < 20
  · simp [c0]
  simp only [c0, if_false]
  refine (@BitVec.getLsbD_append 8 4 (i - 20) (opc ++ BitVec.ofBool f27 ++ BitVec.ofBool f26 ++
    BitVec.ofBool on ++ BitVec.ofBool off : BitVec (4 + 1 + 1 + 1 + 1)) unit).trans ?_
  by_cases c1 : i < 24
  · simp [c1, show i - 20 < 4 by omega]
  simp only [c1, if_false, show ¬ i - 20 < 4 by omega, show i - 20 - 4 = i - 24 by omega]
  refine (@BitVec.getLsbD_append 7 1 (i - 24) (opc ++ BitVec.ofBool f27 ++ BitVec.ofBool f26 ++
    BitVec.ofBool on : BitVec (4 + 1 + 1 + 1)) (BitVec.ofBool off)).trans ?_
  by_cases c2 : i = 24
  · rw [if_pos (show i - 24 < 1 by omega), if_pos c2, one _ _ (by omega)]
  simp only [c2, if_false, show ¬ i - 24 < 1 by omega, show i - 24 - 1 = i - 25 by omega]
  refine (@BitVec.getLsbD_append 6 1 (i - 25) (opc ++ BitVec.ofBool f27 ++ BitVec.ofBool f26 :
    BitVec (4 + 1 + 1)) (BitVec.ofBool on)).trans ?_
  by_cases c3 : i = 25
  · rw [if_pos (show i - 25 < 1 by omega), if_pos c3, one _ _ (by omega)]
  simp only [c3, if_false, show ¬ i - 25 < 1 by omega, show i - 25 - 1 = i - 26 by omega]
  refine (@BitVec.getLsbD_append 5 1 (i - 26) (opc ++ BitVec.ofBool f27 : BitVec (4 + 1))
    (BitVec.ofBool f26)).trans ?_
  by_cases c4 : i = 26
  · rw [if_pos (show i - 26 < 1 by omega), if_pos c4, one _ _ (by omega)]
  simp only [c4, if_false, show ¬ i - 26 < 1 by omega, show i - 26 - 1 = i - 27 by omega]
  refine (@BitVec.getLsbD_append 4 1 (i - 27) opc (BitVec.ofBool f27)).trans ?_
  by_cases c5 : i = 27
  · rw [if_pos (show i - 27 < 1 by omega), if_pos c5, one _ _ (by omega)]
  · simp only [c5, if_false, show ¬ i - 27 < 1 by omega, show i - 27 - 1 = i - 28 by omega]

/-- The opcode of a word of each format. -/
theorem opcodeOf_wordZ (opc : Nibble) : opcodeOf (wordZ opc) = opc := by
  apply BitVec.eq_of_getLsbD_eq
  intro i hi
  rw [opcodeOf, wordField_getLsbD, wordZ_getLsbD, if_neg (by omega)]
  simp [hi]

theorem opcodeOf_wordW (opc : Nibble) (start stop : BitVec 5) : opcodeOf (wordW opc start stop) = opc := by
  apply BitVec.eq_of_getLsbD_eq
  intro i hi
  rw [opcodeOf, wordField_getLsbD, wordW_getLsbD, if_neg (by omega), if_neg (by omega), if_neg (by omega)]
  simp [hi]

theorem opcodeOf_wordR (opc : Nibble) (f27 f26 on off : Bool) (unit : Nibble) (id : Ident) :
    opcodeOf (wordR opc f27 f26 on off unit id) = opc := by
  apply BitVec.eq_of_getLsbD_eq
  intro i hi
  rw [opcodeOf, wordField_getLsbD, wordR_getLsbD, if_neg (by omega), if_neg (by omega), if_neg (by omega),
    if_neg (by omega), if_neg (by omega), if_neg (by omega)]
  simp [hi]

end Sys2Proof
end

