-- ==== Sys2Proof/Laws/PerInstr.lean ====
section
/-! SUPPORT. One statement per command about its word as syntax: the opcode that the table of 30_encoding.md R70
gives it. -/

namespace Sys2Proof.Laws.OpcodeInWord

/-- The opcode of each command (30_encoding.md R70). -/
def opcode : Instr → Nibble
  | .fvVal => 0x1
  | .ptDem => 0x2
  | .ptBase => 0x3
  | .ptWr _ _ => 0x4
  | .ptFoot => 0x5
  | .scSel _ => 0x6
  | .scDec _ => 0x7
  | .scEnca _ => 0x8
  | .usDec _ _ => 0x9
  | .usEnc _ _ _ => 0xA
  | .cmBuild _ _ _ _ => 0xB
  | .decode => 0xC
  | .encode _ _ _ _ _ _ => 0xD

/-- The word of the command carries its opcode in bits 31:28 (30_encoding.md R66). -/
def Statement (i : Instr) : Prop := opcodeOf (encode i) = opcode i

theorem fvVal : Statement .fvVal := opcodeOf_wordZ _
theorem ptDem : Statement .ptDem := opcodeOf_wordZ _
theorem ptBase : Statement .ptBase := opcodeOf_wordZ _
theorem ptWr (start stop : BitVec 5) : Statement (.ptWr start stop) := opcodeOf_wordW _ _ _
theorem ptFoot : Statement .ptFoot := opcodeOf_wordZ _
theorem scSel (id : Ident) : Statement (.scSel id) := opcodeOf_wordR _ _ _ _ _ _ _
theorem scDec (id : Ident) : Statement (.scDec id) := opcodeOf_wordR _ _ _ _ _ _ _
theorem scEnca (id : Ident) : Statement (.scEnca id) := opcodeOf_wordR _ _ _ _ _ _ _
theorem usDec (unit : Nibble) (id : Ident) : Statement (.usDec unit id) := opcodeOf_wordR _ _ _ _ _ _ _
theorem usEnc (on : Bool) (unit : Nibble) (id : Ident) : Statement (.usEnc on unit id) :=
  opcodeOf_wordR _ _ _ _ _ _ _
theorem cmBuild (bits on : Bool) (unit : Nibble) (id : Ident) : Statement (.cmBuild bits on unit id) :=
  opcodeOf_wordR _ _ _ _ _ _ _
theorem decode : Statement .decode := opcodeOf_wordZ _
theorem encode (idv unv on off : Bool) (unit : Nibble) (id : Ident) :
    Statement (.encode idv unv on off unit id) := opcodeOf_wordR _ _ _ _ _ _ _

end Sys2Proof.Laws.OpcodeInWord
end

