-- ==== Sys2Proof/Tests/Slice0.lean ====
section
/-! SUPPORT. The model's own tests. Every expected value is written out in 95_test_vectors.md, 30_encoding.md or the
rule named in the docstring; none comes from running the model. At the end stands one witness for each statement
that has hypotheses. -/

namespace Sys2Proof.Tests

open Sys2Proof Sys2Proof.Machine

/-! ### Fixture F1 (95_test_vectors.md section 2), which is not the device's data -/

/-- A permutation of the nibbles given by its list and the list of its inverse. -/
def nibblePerm (f g : Vector Nibble 16) (h1 : ∀ x : Nibble, g[f[x.toNat].toNat] = x)
    (h2 : ∀ x : Nibble, f[g[x.toNat].toNat] = x) : Equiv.Perm Nibble where
  toFun x := f[x.toNat]
  invFun x := g[x.toNat]
  left_inv := h1
  right_inv := h2

def sboxAList : Vector Nibble 16 := #v[9, 4, 14, 1, 11, 6, 13, 2, 15, 0, 7, 10, 5, 12, 3, 8]
def sboxAInverse : Vector Nibble 16 := #v[9, 3, 7, 14, 1, 12, 5, 10, 15, 0, 11, 4, 13, 6, 2, 8]
def sboxBList : Vector Nibble 16 := #v[3, 12, 5, 10, 0, 15, 6, 9, 14, 1, 8, 7, 13, 2, 11, 4]
def sboxBInverse : Vector Nibble 16 := #v[4, 9, 13, 0, 15, 2, 6, 11, 10, 7, 3, 14, 1, 12, 8, 5]

/-- Fixture F1. -/
def F1 : Config.Tables where
  sboxA := nibblePerm sboxAList sboxAInverse (by decide) (by decide)
  sboxB := nibblePerm sboxBList sboxBInverse (by decide) (by decide)
  usmAOpen u on :=
    if on then #v[some (u + 8), some (u + 4), some (u + 15), some (u + 3)]
    else #v[some u, some (u + 12), some (u + 7), some (u + 11)]
  usmBOpen u on :=
    if on then #v[some (u + 9), some (u + 5), some (u + 14), some (u + 2)]
    else #v[some (u + 1), some (u + 13), some (u + 6), some (u + 10)]

/-- The sequence of vector E1 (section 3.7). -/
def e1Raw : RawSeq :=
  #v[550, 1100, 550, 1100, 550, 1100, 1100, 550, 1100, 550, 1100, 550, 1100, 550, 550, 1100, 1100, 550, 550, 1100,
    550, 1100, 1100, 550, 1100, 550, 550, 1100, 1100, 550, 1100, 550, 550, 1100, 1100, 550, 1100, 550, 550, 1100,
    550, 1100, 550, 1100, 1100, 550, 550, 1100, 550, 7200]

/-- The sequence of vector E3 (section 3.7). -/
def e3Raw : RawSeq :=
  #v[550, 1100, 1100, 550, 550, 1100, 550, 1100, 550, 1100, 1100, 550, 1100, 550, 550, 1100, 1100, 550, 1100, 550,
    550, 1100, 550, 1100, 550, 1100, 1100, 550, 1100, 550, 550, 1100, 1100, 550, 550, 1100, 1100, 550, 550, 1100,
    550, 1100, 1100, 550, 550, 1100, 1100, 550, 550, 7200]

/-- The noisy capture of program P1 (section 5). -/
def p1Raw : RawSeq :=
  #v[542, 551, 561, 65535, 472, 937, 1220, 550, 1034, 0, 1159, 437, 1139, 457, 469, 944, 1121, 483, 477, 1023, 483,
    1182, 1118, 437, 1154, 445, 517, 1222, 1170, 504, 1025, 503, 609, 1103, 1022, 458, 1021, 501, 494, 1048, 567,
    973, 598, 960, 1156, 469, 603, 1249, 612, 6893]

/-- A frame of 50 elements that all last 1100 microseconds, but for the footer. -/
def frame (footer : Dur) : State :=
  { State.reset with raw := (Vector.replicate 50 1100).set 49 footer, len := 50 }

/-- A state with a sequence and the length 50. -/
def loaded (raw : RawSeq) : State := { State.reset with raw := raw, len := 50 }

/-- A state with the given port events. -/
def withPort (l : List PortEvent) : State := { State.reset with port := l }

/-- The state a step answers, if it answers one. -/
def nextOf (o : Host.Outcome State Fault Refusal) : Option State :=
  match o with
  | .next s => some s
  | .fault _ => none
  | .refused _ => none

/-! ### WellFormed, one ill-formed term for each condition of 30_encoding.md R68 -/

theorem test_wellFormed_refuses_start_after_stop : (Instr.ptWr 5 3).wellFormed = false := by decide
theorem test_wellFormed_refuses_stop_past_23 : (Instr.ptWr 20 24).wellFormed = false := by decide
theorem test_wellFormed_accepts_all_positions : (Instr.ptWr 0 23).wellFormed = true := by decide
theorem test_wellFormed_accepts_last_position : (Instr.ptWr 23 23).wellFormed = true := by decide

/-! ### Decoding: the words of 95_test_vectors.md sections 3 and 4 -/

/-- The word of section 3.5 with bits 27:0 set (44_frame_validator.md). -/
theorem test_decode_fvVal : decode 0x1FFFFFFF = .ok .fvVal := by decide
theorem test_decode_ptDem : decode 0x20000000 = .ok .ptDem := by decide
theorem test_decode_ptBase : decode 0x30000000 = .ok .ptBase := by decide
/-- WR1 and WR9. -/
theorem test_decode_ptWr : decode 0x40000086 = .ok (.ptWr 4 6) ∧ decode 0x4FFFFE97 = .ok (.ptWr 20 23) := by decide
theorem test_decode_ptFoot : decode 0x50000000 = .ok .ptFoot := by decide
theorem test_decode_scSel : decode 0x6FF4FFFF = .ok (.scSel 0x4FFFF) := by decide
/-- DEC2. -/
theorem test_decode_scDec : decode 0x7001E9B6 = .ok (.scDec 0x1E9B6) := by decide
/-- ENC-A1. -/
theorem test_decode_scEnca : decode 0x8001FABC = .ok (.scEnca 0x1FABC) := by decide
/-- USD8. -/
theorem test_decode_usDec : decode 0x90940001 = .ok (.usDec 9 0x40001) := by decide
/-- USE2 and USE4. -/
theorem test_decode_usEnc :
    decode 0xAF21FFFF = .ok (.usEnc true 2 0x1FFFF) ∧ decode 0xA0940000 = .ok (.usEnc false 9 0x40000) := by decide
/-- CMB1 and CMB4. -/
theorem test_decode_cmBuild :
    decode 0xBA210ABC = .ok (.cmBuild true true 2 0x10ABC) ∧ decode 0xB5000000 = .ok (.cmBuild false false 0 0) := by
  decide
theorem test_decode_decode : decode 0xC0000000 = .ok .decode := by decide
/-- ENA1 to ENA4. -/
theorem test_decode_encode :
    decode 0xDF210ABC = .ok (.encode true true true true 2 0x10ABC) ∧
      decode 0xDC210ABC = .ok (.encode true true false false 2 0x10ABC) ∧
      decode 0xD6200000 = .ok (.encode false true true false 2 0) ∧
      decode 0xDA010ABC = .ok (.encode true false true false 0 0x10ABC) := by decide
/-- Section 3.8. -/
theorem test_decode_reserved :
    decode 0x00000000 = .error (.reservedOpcode 0) ∧ decode 0x0FFFFFFF = .error (.reservedOpcode 0) ∧
      decode 0xE0000000 = .error (.reservedOpcode 14) ∧ decode 0xFFFFFFFF = .error (.reservedOpcode 15) := by decide
/-- The words of 30_encoding.md R74 as the encoder writes them. -/
theorem test_encode_words :
    encode (.ptWr 0 19) = 0x40000013 ∧ encode (.usDec 2 0x1E9B6) = 0x9021E9B6 ∧
      encode (.cmBuild true true 2 0x10ABC) = 0xBA210ABC ∧
      encode (.encode true true true false 9 0x40ABC) = 0xDE940ABC := by decide

/-! ### Pulse timing (section 3.2 and 3.1; all tables) -/

/-- DEM3: position 0 reads 0, every other position 1. -/
theorem test_ptDem_threshold_is_strict :
    (runPtDem (loaded ((Vector.replicate 50 550).set 1 551))).bvr = 0x7FFFFF := by decide
/-- DEM8. -/
theorem test_ptDem_position_order : (runPtDem (loaded e1Raw)).bvr = 0x1E9B62 := by decide
/-- BAS1. -/
theorem test_ptBase_keeps_the_footer :
    (runPtBase (frame 1234)).raw[49] = 1234 ∧ (runPtBase (frame 1234)).raw[48] = 550 ∧
      (runPtBase (frame 1234)).raw[0] = 550 ∧ (runPtBase (frame 1234)).raw[47] = 1100 := by decide
/-- WR1. -/
theorem test_ptWr_bit_order :
    (runPtWr 4 6 { frame 0 with wv := 0x000005 }).raw.toList.take 16 =
      [1100, 1100, 1100, 1100, 1100, 1100, 1100, 1100, 1100, 550, 550, 1100, 1100, 550, 1100, 1100] := by decide
/-- WR6, WR7, WR8. -/
theorem test_ptWr_illegal_range :
    runPtWr 5 3 (frame 7) = { frame 7 with status := 0x05 } ∧
      runPtWr 20 24 (frame 7) = { frame 7 with status := 0x05 } ∧
      runPtWr 31 31 (frame 7) = { frame 7 with status := 0x05 } := by decide
/-- FT1. -/
theorem test_ptFoot : runPtFoot (frame 0) = frame 7200 := by decide

/-! ### Cipher (sections 3.3 and 4) -/

/-- S3 (all tables). -/
theorem test_scSel_partition :
    (List.range 16).map (fun t => (runScSel (BitVec.ofNat 20 (t * 0x10000)) State.reset).tsel) =
      [1, 0, 0, 0, 1, 0, 0, 0, 1, 0, 0, 0, 1, 0, 0, 0] := by decide
/-- DEC2, DEC3 and DEC4 (F1). -/
theorem test_scDec_chain :
    scDecode F1 0x1E9B6 = 0x10ABC ∧ scDecode F1 0x1A5C3 = 0x102A6 ∧ scDecode F1 0x4A5C3 = 0x40D3E := by decide
/-- DEC7 and DEC10 (F1). -/
theorem test_scDec_result :
    (runScDec F1 0x25A6B State.reset).resId = 0x20C16 ∧ (runScDec F1 0xC1234 State.reset).resId = 0xC0E6E := by
  decide
/-- ENC-A1 (F1), with the seed nibble of the input ignored. -/
theorem test_scEnca_array :
    (runScEnca F1 0x1FABC State.reset).var =
      #v[0x185D0, 0x1D661, 0x1B022, 0x11E83, 0x141F4, 0x12405, 0x1E9B6, 0x17847, 0x13B18, 0x19AC9, 0x1F25A, 0x103AB,
        0x1679C, 0x1CF3D, 0x1AD7E, 0x15CEF] := by decide
/-- ENC-A6 (F1, branch B), four entries. -/
theorem test_scEnca_branch_B :
    (runScEnca F1 0xC0123 State.reset).var[0] = 0xC1D00 ∧ (runScEnca F1 0xC0123 State.reset).var[7] = 0xCCCF7 ∧
      (runScEnca F1 0xC0123 State.reset).var[10] = 0xC027A ∧ (runScEnca F1 0xC0123 State.reset).var[15] = 0xC901F := by
  decide

/-! ### Unit and state (section 3.4) -/

/-- USD5, USD7 and USD8 (all tables, so on `exec`): an on code, a code in neither list, an absent list. -/
theorem test_usDec_all_tables :
    exec (.usDec 2 0xF0005) State.reset = .next { State.reset with resState := 1 } ∧
      exec (.usDec 2 0x10002) State.reset = .next State.reset ∧
      exec (.usDec 9 0x40001) State.reset = .next State.reset := by
  refine ⟨rfl, rfl, rfl⟩
/-- USD10, USD11 and USD14 (F1). -/
theorem test_usDec_F1 :
    (runUsDec F1 5 0x4000A State.reset).resState = 1 ∧ (runUsDec F1 5 0x40002 State.reset).resState = 0 ∧
      (runUsDec F1 2 0x8000A State.reset).resState = 0 := by decide
/-- USE1 and USE5 (all tables). -/
theorem test_usEnc_all_tables :
    exec (.usEnc true 2 0x10000) State.reset = .next { State.reset with resSc := 6 } ∧
      exec (.usEnc false 8 0x00000) State.reset = .next { State.reset with status := 0x02 } := by
  refine ⟨rfl, rfl⟩
/-- USE6 and USE8 to USE10 (F1). -/
theorem test_usEnc_F1 :
    (runUsEnc F1 false 2 0x10000 State.reset).resSc = 14 ∧ (runUsEnc F1 false 5 0x40000 State.reset).resSc = 2 ∧
      (runUsEnc F1 true 7 0x00000 State.reset).resSc = 12 ∧ (runUsEnc F1 true 15 0xF0000 State.reset).resSc = 3 := by
  decide

/-! ### Frame validator (S2; all tables) -/

theorem test_fvVal_footer_window :
    (runFvVal (frame 6479)).status = 0x01 ∧ (runFvVal (frame 6480)).status = 0x00 ∧
      (runFvVal (frame 7920)).status = 0x00 ∧ (runFvVal (frame 7921)).status = 0x01 := by decide
theorem test_fvVal_length :
    (runFvVal { frame 7200 with len := 49 }).status = 0x01 ∧ (runFvVal { frame 7200 with len := 51 }).status = 0x01 :=
  by decide

/-! ### Record builder and DECODE (section 3.6) -/

/-- CMB1. -/
theorem test_cmBuild_with_bits :
    runCmBuild true true 2 0x10ABC { State.reset with bvr := 0x1E9B62 } =
      { State.reset with
        bvr := 0x1E9B62, recId := 0x10ABC, recUnit := 2, recState := 1, diag := 0x1E9B62, status := 0x30 } := by
  decide
/-- CMB2. -/
theorem test_cmBuild_without_bits :
    runCmBuild false true 2 0x10ABC { State.reset with bvr := 0x1E9B62, diag := 0x123456 } =
      { State.reset with
        bvr := 0x1E9B62, recId := 0x10ABC, recUnit := 2, recState := 1, diag := 0x123456, status := 0x10 } := by
  decide
/-- Program P1 (F1), a noisy capture; the diagnostic string of section 3.7. -/
theorem test_decode_noisy_capture :
    runDecode F1 (loaded p1Raw) =
        { loaded p1Raw with
          bvr := 0x1E9B62, recId := 0x10ABC, recUnit := 2, recState := 1, diag := 0x1E9B62, status := 0x30 } ∧
      String.ofList (diagChars (runDecode F1 (loaded p1Raw)).diag) = "000111101001101101100010" := by decide
/-- DCD7 (F1) and DCD11: an accepted frame of ones with an off code, and a rejection that destroys nothing. -/
theorem test_decode_off_and_rejected :
    (runDecode F1 (loaded ((Vector.replicate 50 550).set 49 7200))).recId = 0xF0777 ∧
      (runDecode F1 (loaded ((Vector.replicate 50 550).set 49 7200))).recState = 0 ∧
      runDecode F1 (loaded (e1Raw.set 49 6479)) = { loaded (e1Raw.set 49 6479) with status := 0x01 } := by decide

/-! ### ENCODE (section 3.7) -/

/-- E3 (F1). -/
theorem test_encode_succeeds :
    runEncode F1 true true true false 5 0x40ABC (frame 6893) =
      { loaded e3Raw with recId := 0x40ABC, recUnit := 5, recState := 1, status := 0x50 } := by decide +kernel
/-- E7 (F1). -/
theorem test_encode_consistencyFailure :
    runEncode F1 true true true false 2 0x1FABC (frame 7000) =
      { loaded e1Raw with sugId := 0x10ABC, status := 0x83 } := by decide +kernel
/-- ENA5 and ENU4 (all tables): the order of the tests. -/
theorem test_encode_order_of_tests :
    exec (.encode false true true true 9 0x40ABC) (frame 7000) = .next { frame 7000 with status := 0x04 } ∧
      exec (.encode true true true false 9 0x4FABC) (frame 7000) = .next { frame 7000 with status := 0x02 } := by
  refine ⟨rfl, rfl⟩

/-! ### Host port and reset (section 3.9) -/

/-- HA1. -/
theorem test_reset_values : State.reset.cmd = 0 ∧ State.reset.status = 0 ∧ State.reset.len = 0 := by decide
/-- HA3 and HA4. -/
theorem test_read_only_write_ignored :
    step (withPort [.write 0x35 0xFF]) = .next State.reset ∧ step (withPort [.write 0x37 0x12345]) = .next State.reset ∧
      step (withPort [.write 0x43 1]) = .next State.reset ∧ step (withPort [.write 0x36 0]) = .next State.reset :=
  ⟨rfl, rfl, rfl, rfl⟩
/-- HA5: the word stays in CMD (and DECODE has run once: LEN = 0 after reset, so it rejects). -/
theorem test_command_word_is_read_back :
    core.run 2 (withPort [.write 0x34 0xC0000000, .read 0x34]) =
      .next { State.reset with cmd := 0xC0000000, status := 0x01, outputs := [0xC0000000] } := rfl
/-- HA7. -/
theorem test_raw_write_is_read_back :
    core.run 2 (withPort [.write 49 7200, .read 49]) =
      .next { State.reset with raw := (Vector.replicate 50 0).set 49 7200, outputs := [7200] } := rfl
/-- HA8. -/
theorem test_reserved_index_refused :
    step (withPort [.read 0x50]) = .refused (.reservedIndex 0x50) ∧
      step (withPort [.write 0x50 0]) = .refused (.reservedIndex 0x50) := ⟨rfl, rfl⟩
/-- Section 3.8, as a step: nothing but STATUS and CMD changes. -/
theorem test_illegal_word_step :
    step (withPort [.write 0x34 0xFFFFFFFF]) = .next { State.reset with cmd := 0xFFFFFFFF, status := 0x05 } := rfl
/-- `LDCAP 2: 7 9` (30_encoding.md R74). -/
theorem test_ldcap_events : ldcap 2 [7, 9] = [.write 0 7, .write 1 9, .write 0x32 2] := by decide
/-- The first step after `withFetchWord` runs the word's command. -/
theorem test_withFetchWord_runs :
    step (State.reset.withFetchWord 32 0x50000000) =
      .next { State.reset with raw := (Vector.replicate 50 0).set 49 7200, cmd := 0x50000000 } := rfl

/-! ### Witnesses: what meets the hypotheses of each statement, at the ends of their ranges -/

/-- A zero seed nibble, a supported unit, and the on code, whatever the tables (10_state.md R28). -/
theorem supported : idSeed 0x10ABC = 0 ∧
    (usm Config.tables (selectTable (idType 0x10ABC)) 2 true)[1] = some 6 := ⟨by decide, rfl⟩

theorem witness_EncodeOfDecode : decode 0xFFF00000 = .error (.reservedOpcode 15) ∧
    decode 0xDFF00000 = .ok (.encode true true true true 15 0) := by decide

theorem witness_IgnoredFieldsDoNotDecode : decode 0x4FFFFE97 = .ok (.ptWr 20 23) ∧
    (0x4FFFFE97 : Word) &&& usedBits (.ptWr 20 23) = 0x40000297 &&& usedBits (.ptWr 20 23) := by decide

/-- Every opcode is that of some word. -/
theorem witness_OpcodeMap : ∀ k : Fin 16, ∃ w : Word, (w.extractLsb' 28 4).toNat = k.val := by
  intro k
  refine ⟨BitVec.ofNat 32 (k.val * 0x10000000), ?_⟩
  revert k
  decide

theorem witness_StepRunsTheDecodedCommand :
    (withPort [.write 0x34 0xC0000000]).port = .write 0x34 0xC0000000 :: [] ∧ 0xC0000000 < 2 ^ 32 ∧
      decode (BitVec.ofNat 32 0xC0000000) = .ok .decode := by decide

/-- Illegal words and legal ones at the borders between them. -/
theorem witness_IllegalWordsAndNoOthers :
    ((0x00000000 : Word).extractLsb' 28 4).toNat = 0 ∧ ((0x10000000 : Word).extractLsb' 28 4).toNat = 1 ∧
      ((0xDFFFFFFF : Word).extractLsb' 28 4).toNat = 13 ∧ ((0xE0000000 : Word).extractLsb' 28 4).toNat = 14 ∧
      ((0xFFFFFFFF : Word).extractLsb' 28 4).toNat = 15 ∧ 0xFFFFFFFF < 2 ^ 32 ∧
      (((0x40000297 : Word).extractLsb' 5 5).toNat = 20 ∧ ((0x40000297 : Word).extractLsb' 0 5).toNat = 23) ∧
      (((0x40000298 : Word).extractLsb' 5 5).toNat = 20 ∧ ((0x40000298 : Word).extractLsb' 0 5).toNat = 24) ∧
      (((0x40000085 : Word).extractLsb' 5 5).toNat = 4 ∧ ((0x40000085 : Word).extractLsb' 0 5).toNat = 5) ∧
      (((0x400000A4 : Word).extractLsb' 5 5).toNat = 5 ∧ ((0x400000A4 : Word).extractLsb' 0 5).toNat = 4) := by
  decide

/-- Its third clause: two words of one command, and a step. -/
theorem witness_IllegalWordsAndNoOthers_ignored :
    decode 0x10000000 = .ok .fvVal ∧ (0x10000000 : Word) &&& usedBits .fvVal = 0x1FFFFFFF &&& usedBits .fvVal ∧
      nextOf (step (withPort [.write 0x34 0x10000000])) =
        some { State.reset with cmd := 0x10000000, status := 0x01 } := by decide

/-- The lowest and the highest index of every clause. -/
theorem witness_HostReadReturnsTheRegister :
    (withPort [.read 0x4F]).port = .read 0x4F :: [] ∧ 0x4F < 0x50 ∧ 0 < 50 ∧ 49 < 50 ∧
      0x40 = 0x40 + (0 : Fin 16).val ∧ 0x4F = 0x40 + (15 : Fin 16).val ∧ ¬ 0x32 < 50 ∧
      (∀ c : Fin 16, 0x3F ≠ 0x40 + c.val) := by decide

/-- The largest value that fits and the smallest that does not, clause by clause. -/
theorem witness_HostWriteStores :
    (withPort [.write 49 65535]).port = .write 49 65535 :: [] ∧ 49 < 50 ∧ 65535 < 2 ^ 16 ∧
      255 < 2 ^ 8 ∧ 0xFFFFFF < 2 ^ 24 ∧ 0xFFFFFFFF < 2 ^ 32 ∧
      regAt 0x35 = some .status ∧ 255 < 2 ^ Reg.status.width ∧ regAt 0x4F = some (.var 15) ∧
      0xFFFFF < 2 ^ (Reg.var 15).width ∧ 2 ^ 16 ≤ 65536 ∧ 2 ^ 8 ≤ 256 ∧ 2 ^ 24 ≤ 0x1000000 ∧
      2 ^ 32 ≤ 0x100000000 := by decide

theorem witness_ReadOnlyWriteIsIgnored :
    (withPort [.write 0x35 256]).port = .write 0x35 256 :: [] ∧ (withPort [.write 0x4F 0]).port = .write 0x4F 0 :: [] ∧
      0x35 ≤ 0x35 ∧ 0x4F < 0x50 := by decide

theorem witness_ReservedIndexIsRefused :
    0x50 ≤ 0x50 ∧ (withPort [.read 0x50]).port = .read 0x50 :: [] ∧
      (withPort [.write 0x50 0]).port = .write 0x50 0 :: [] := by decide

theorem witness_StopsOnlyAtTheHostBoundary :
    step (withPort [.read 0x50]) = .refused (.reservedIndex 0x50) ∧
      step (withPort [.write 0x50 1]) = .refused (.reservedIndex 0x50) ∧
      step (withPort [.write 49 65536]) = .refused (.valueDoesNotFit 49 65536) ∧
      step (withPort [.write 0x32 256]) = .refused (.valueDoesNotFit 0x32 256) ∧
      step (withPort [.write 0x33 0x1000000]) = .refused (.valueDoesNotFit 0x33 0x1000000) ∧
      step (withPort [.write 0x34 0x100000000]) = .refused (.valueDoesNotFit 0x34 0x100000000) :=
  ⟨rfl, rfl, rfl, rfl, rfl, rfl⟩

theorem witness_EmptyPortIsIdle : State.reset.port = [] := rfl

theorem witness_PlatformResetClears : (withPort [.reset]).port = .reset :: [] := rfl

theorem witness_RejectsUntilLoaded :
    ({ frame 7200 with len := 0 } : State).len = 0 ∧ 0x1FFFFFFF < 2 ^ 32 ∧
      decode (BitVec.ofNat 32 0x1FFFFFFF) = .ok .fvVal ∧ decode (BitVec.ofNat 32 0xC0000000) = .ok .decode ∧
      (withPort [.write 0x34 0x1FFFFFFF]).len = 0 ∧
      (withPort [.write 0x34 0x1FFFFFFF]).port = .write 0x34 0x1FFFFFFF :: [] ∧
      (withPort [.reset, .write 0x34 0xC0000000]).port = .reset :: .write 0x34 0xC0000000 :: [] := by decide

/-- The ends of the range of n: nothing, fifty elements, and a capture of more than 255. -/
theorem witness_LoadCapture :
    ([] : List Nat).length = min 0 50 ∧ (withPort (ldcap 0 [] ++ [])).port = ldcap 0 [] ++ [] ∧
      (List.replicate 50 65535).length = min 300 50 ∧ (∀ v ∈ List.replicate 50 65535, v < 2 ^ 16) ∧
      (withPort (ldcap 300 (List.replicate 50 65535) ++ [])).port = ldcap 300 (List.replicate 50 65535) ++ [] := by
  refine ⟨rfl, rfl, rfl, ?_, rfl⟩
  intro v hv
  rw [List.eq_of_mem_replicate hv]
  decide

/-- States as an ENCODE, a failed ENCODE and a DECODE leave them. -/
def afterEncode : State :=
  { loaded e1Raw with
    cmd := 0xDE210ABC, recId := 0x10ABC, recUnit := 2, recState := 1, status := 0x50, port := [.read 0x35] }
def afterFailure : State := { loaded e1Raw with cmd := 0xDE21FABC, sugId := 0x10ABC, status := 0x83 }
/-- The identifier depends on the tables; the code 6 is an on code under all of them (10_state.md R28). -/
def afterDecode : State :=
  { loaded e1Raw with
    cmd := 0xC0000000, bvr := 0x1E9B62, recId := scDecode Config.tables 0x1E9B6, recUnit := 2, recState := 1,
    diag := 0x1E9B62, status := 0x30 }
def afterBuild : State := { State.reset with cmd := 0xB2210ABC, recId := 0x10ABC, recUnit := 2, recState := 1, status := 0x10 }

/-- The invariant holds where flags are set, and a step goes on from there. -/
theorem witness_FlagsStayHonest :
    afterEncode.flagsHonest ∧ afterFailure.flagsHonest ∧ afterBuild.flagsHonest ∧
      nextOf (step afterEncode) = some { afterEncode with port := [], outputs := [0x50] } := by
  refine ⟨⟨?_, ?_, ?_, ?_, ?_⟩, ⟨?_, ?_, ?_, ?_, ?_⟩, ⟨?_, ?_, ?_, ?_, ?_⟩, rfl⟩
  all_goals decide

/-- And after a DECODE, whatever the tables. -/
theorem witness_FlagsStayHonest_decode : afterDecode.flagsHonest :=
  ⟨by decide, fun _ => .inr (.inl ⟨by decide, rfl, by decide, rfl⟩), fun h => absurd h (by decide), by decide,
    fun h => absurd h (by decide)⟩

/-- An ENCODE that leaves TXV = 1. -/
theorem witness_TxvMeansASequence :
    ∃ t, exec (.encode true true true false 2 0x10ABC) State.reset = .next t ∧ t.txv = true := by
  refine ⟨_, exec_eq _ _, ?_⟩
  show (runEncode Config.tables true true true (!true) 2 0x10ABC State.reset).txv = true
  rw [runEncode_of_cleared Config.tables true 2 0x10ABC 6 State.reset rfl (by decide), finish_txv]

theorem witness_FlagsHonestAfterReset : State.afterSomeReset { State.reset with sugId := 5, diag := 7 } := by decide

theorem witness_OutcomeKindsOfACommand : exec .fvVal State.reset = .next { State.reset with status := 0x01 } := rfl

/-- Each register is changed by one of its commands. -/
theorem witness_OnlyItsCommandsWriteARegister :
    (runPtBase State.reset).raw ≠ State.reset.raw ∧ (runPtDem State.reset).bvr ≠ State.reset.bvr ∧
      (runCmBuild true true 2 0x10ABC { State.reset with bvr := 3 }).recId ≠ State.reset.recId ∧
      (runCmBuild true true 2 0x10ABC { State.reset with bvr := 3 }).diag ≠ State.reset.diag ∧
      (runScSel 0 State.reset).tsel ≠ State.reset.tsel ∧
      (runUsDec Config.tables 2 0x1000A State.reset).resState ≠ State.reset.resState ∧
      (runUsEnc Config.tables true 2 0x10000 State.reset).resSc ≠ State.reset.resSc := by
  refine ⟨by decide, by decide, by decide, by decide, by decide, by decide, by decide⟩

/-- And LEN, SUG_ID, RES_ID and VAR, whose new values depend on the tables. -/
theorem witness_OnlyItsCommandsWriteARegister_tables :
    (runEncode Config.tables true true true false 2 0x10ABC State.reset).len ≠ State.reset.len ∧
      (runEncode Config.tables true true true false 2 0x1FABC State.reset).sugId ≠ State.reset.sugId ∧
      (runScDec Config.tables 0x10000 State.reset).resId ≠ State.reset.resId ∧
      (runScEnca Config.tables 0x10000 State.reset).var ≠ State.reset.var := by
  refine ⟨?_, ?_, fun h => ?_, fun h => ?_⟩
  · rw [show (false : Bool) = !true from rfl,
      runEncode_of_cleared Config.tables true 2 0x10ABC 6 State.reset rfl (by decide)]
    decide
  · rw [show (false : Bool) = !true from rfl,
      runEncode_of_seed Config.tables true 2 0x1FABC 6 State.reset rfl (by decide)]
    decide
  · have h' := congrArg idType h
    rw [runScDec, finish_resId, idType_scDecode] at h'
    exact absurd h' (by decide)
  · have h' := congrArg (fun v : VarArray => idType v[0]) h
    obtain ⟨c, -, he⟩ := encodeAllVariants_entry Config.tables (idType 0x10000) (idP1 0x10000) (idP2 0x10000)
      (idP3 0x10000) 0
    have h0 : (encodeAllVariants Config.tables (idType 0x10000) (idP1 0x10000) (idP2 0x10000) (idP3 0x10000))[0] =
      variantOf Config.tables (idType 0x10000) (idP1 0x10000) (idP2 0x10000) (idP3 0x10000) c := he
    simp only [runScEnca, finish_var] at h'
    rw [h0, variantOf, idType_mkId] at h'
    exact absurd h' (by decide)

theorem witness_RepeatingACommandChangesNothing : exec .ptFoot (frame 0) = .next (frame 7200) := by rfl

/-- The opcodes that the first clauses of the statements about single commands name. -/
theorem witness_command_words :
    ((0x1FFFFFFF : Word).extractLsb' 28 4).toNat = 1 ∧ ((0x20000000 : Word).extractLsb' 28 4).toNat = 2 ∧
      ((0x30000000 : Word).extractLsb' 28 4).toNat = 3 ∧ ((0x40000086 : Word).extractLsb' 28 4).toNat = 4 ∧
      ((0x50000000 : Word).extractLsb' 28 4).toNat = 5 ∧ ((0x604FFFFF : Word).extractLsb' 28 4).toNat = 6 ∧
      ((0x7001E9B6 : Word).extractLsb' 28 4).toNat = 7 ∧ ((0x80010ABC : Word).extractLsb' 28 4).toNat = 8 ∧
      ((0x90210006 : Word).extractLsb' 28 4).toNat = 9 ∧ ((0xA2210000 : Word).extractLsb' 28 4).toNat = 10 ∧
      ((0xBA210ABC : Word).extractLsb' 28 4).toNat = 11 ∧ ((0xC0000000 : Word).extractLsb' 28 4).toNat = 12 ∧
      ((0xDE210ABC : Word).extractLsb' 28 4).toNat = 13 := by decide

/-- The smallest and the largest legal range and the nearest illegal ones. -/
theorem witness_PtWrWritesTheRange :
    ((0 : BitVec 5).toNat ≤ (0 : BitVec 5).toNat ∧ (0 : BitVec 5).toNat ≤ 23) ∧
      ((0 : BitVec 5).toNat ≤ (23 : BitVec 5).toNat ∧ (23 : BitVec 5).toNat ≤ 23) ∧
      ((23 : BitVec 5).toNat ≤ (23 : BitVec 5).toNat) ∧
      ((22 : BitVec 5).toNat < (23 : BitVec 5).toNat) ∧ 23 < (24 : BitVec 5).toNat := by decide

theorem witness_PtFootWritesTheFooter : (frame 0).len = 50 := rfl

theorem witness_OneEncodingPerSeed : idSeed 0x10ABC = 0 ∧ scDecode F1 0x1E9B6 = 0x10ABC ∧ idSeed 0x1E9B6 = 14 := by
  decide

/-- A list with a canonical code, and one whose canonical entry is absent. -/
theorem witness_UsEncGivesTheCanonicalCode :
    (usm Config.tables (selectTable ((0x10000 : Ident).extractLsb' 16 4)) 2 true)[1] = some 6 ∧
      (usm Config.tables (selectTable ((0x40000 : Ident).extractLsb' 16 4)) 8 false)[1] = none := ⟨rfl, rfl⟩

theorem witness_UnitTwoUnderBranchA :
    selectTable (idType 0x10000) = .A ∧ selectTable (idType 0xFFFFF) = .A := by decide

theorem witness_HighUnitsUnderBranchB :
    selectTable (idType 0x00000) = .B ∧ selectTable (idType 0xC0ABC) = .B ∧ 8 ≤ (8 : Nibble).toNat ∧
      8 ≤ (15 : Nibble).toNat := by decide

/-- For on and for off (F1). -/
theorem witness_CanonicalCodeDecodesBack :
    (runUsEnc F1 true 2 0x10000 State.reset).code = 0 ∧ idType 0x1ABC6 = idType 0x10000 ∧
      idP3 0x1ABC6 = (runUsEnc F1 true 2 0x10000 State.reset).resSc ∧
      (runUsEnc F1 false 2 0x10000 State.reset).code = 0 ∧
      idP3 0x1000E = (runUsEnc F1 false 2 0x10000 State.reset).resSc ∧ offCodeApart F1 (idType 0x10000) 2 = true := by
  decide

/-- The ends of the footer window, from inside and from outside, and the lengths beside 50. -/
theorem witness_DecodeGivesTheRecord :
    (frame 6480).len.toNat = 50 ∧ 6480 ≤ (frame 6480).raw[49].toNat ∧ (frame 7920).raw[49].toNat ≤ 7920 ∧
      (frame 6480).raw[49].toNat ≤ 7920 ∧ 6480 ≤ (frame 7920).raw[49].toNat ∧
      (frame 6479).raw[49].toNat < 6480 ∧ 7920 < (frame 7921).raw[49].toNat ∧
      State.reset.len.toNat ≠ 50 ∧ ({ frame 7200 with len := 51 } : State).len.toNat ≠ 50 := by decide

theorem witness_DecodedRecordAsSeen :
    (loaded p1Raw).len.toNat = 50 ∧ 6480 ≤ (loaded p1Raw).raw[49].toNat ∧ (loaded p1Raw).raw[49].toNat ≤ 7920 := by
  decide

/-- Two sequences that differ in leading elements and element 48 only. -/
theorem witness_LeadingElementsAreNotRead :
    ((e1Raw.set 0 9).set 48 0)[49] = (loaded e1Raw).raw[49] ∧ (e1Raw.set 0 9).set 48 0 ≠ e1Raw ∧
      (∀ (p : Nat) (hp : p < 24), ((e1Raw.set 0 9).set 48 0)[2 * p + 1] = (loaded e1Raw).raw[2 * p + 1]) := by
  refine ⟨rfl, by decide, fun p hp => ?_⟩
  rw [Vector.getElem_set, Vector.getElem_set, if_neg (by omega), if_neg (by omega)]
  rfl

theorem witness_UnitLevelDecodeAgrees :
    (loaded e1Raw).len.toNat = 50 ∧ 6480 ≤ (loaded e1Raw).raw[49].toNat ∧ (loaded e1Raw).raw[49].toNat ≤ 7920 := by
  decide

/-- Each of the missing arguments alone: no identifier, no unit, both flags, neither flag. -/
theorem witness_EncodeArgumentMissing :
    (false = false ∨ true = false ∨ true = false) ∧ (true = false ∨ false = false ∨ true = false) ∧
      (true = false ∨ true = false ∨ true = true) ∧ (true = false ∨ true = false ∨ false = false) := by decide

theorem witness_EncodeOrderOfTests :
    (usm Config.tables (selectTable (idType 0x4FABC)) 9 true)[1] = none := rfl

theorem witness_EncodeSynthesizes :
    (0x10ABC : Ident).extractLsb' 12 4 = 0#4 ∧
      (usm Config.tables (selectTable ((0x10ABC : Ident).extractLsb' 16 4)) 2 true)[1] = some 6 := ⟨by decide, rfl⟩

theorem witness_EncodeSuggestsTheClearedId :
    (0x1FABC : Ident).extractLsb' 12 4 ≠ 0#4 ∧
      (usm Config.tables (selectTable ((0x1FABC : Ident).extractLsb' 16 4)) 2 true)[1] = some 6 := ⟨by decide, rfl⟩

/-- For on, and for off with its premise, in both branches (F1). -/
theorem witness_EncodeDecodeRoundTrip :
    idSeed 0x40ABC = 0 ∧ (usm F1 (selectTable (idType 0x40ABC)) 5 true)[1] = some 10 ∧
      (usm F1 (selectTable (idType 0x40ABC)) 5 false)[1] = some 2 ∧ offCodeApart F1 (idType 0x40ABC) 5 = true ∧
      idSeed 0x10ABC = 0 ∧ (usm F1 (selectTable (idType 0x10ABC)) 2 false)[1] = some 14 ∧
      offCodeApart F1 (idType 0x10ABC) 2 = true := by decide

theorem witness_EncodeUnitTwoOnScenario : selectTable (idType 0x10ABC) = .A ∧ idSeed 0x10ABC = 0 := by decide

theorem witness_UnitLevelEncodeAgrees : idSeed 0x10ABC = 0 ∧
    (usm Config.tables (selectTable (idType 0x10ABC)) 2 true)[1] = some 6 := supported

end Sys2Proof.Tests
end

section
/-! SUPPORT. What a step and a command can leave in STATUS, and what the word of a flag-setting command holds: the
facts behind the invariant `State.flagsHonest`. -/

namespace Sys2Proof

/-- The opcode of the word a command was decoded from (30_encoding.md R70). -/
theorem opcodeOf_of_decode {w : Word} {i : Instr} (h : decode w = .ok i) :
    opcodeOf w = Laws.OpcodeInWord.opcode i := by
  apply BitVec.eq_of_toNat_eq
  unfold decode at h
  split at h <;> cases h <;> assumption

/-- The operands of a CM.BUILD are the fields of its word (30_encoding.md R69, R70). -/
theorem decode_cmBuild_fields {w : Word} {bits on : Bool} {unit : Nibble} {id : Ident}
    (h : decode w = .ok (.cmBuild bits on unit id)) : onOf w = on ∧ unitField w = unit ∧ idField w = id := by
  unfold decode at h
  split at h <;> cases h
  exact ⟨rfl, rfl, rfl⟩

/-- The operands of an ENCODE are the fields of its word (30_encoding.md R69, R70). -/
theorem decode_encode_fields {w : Word} {idv unv on off : Bool} {unit : Nibble} {id : Ident}
    (h : decode w = .ok (.encode idv unv on off unit id)) :
    onOf w = on ∧ unitField w = unit ∧ idField w = id := by
  unfold decode at h
  split at h <;> cases h
  exact ⟨rfl, rfl, rfl⟩

namespace Machine

open Sys2Proof.Config (Tables)

/-! ### The ways ENCODE ends -/

/-- Everything ENCODE can answer (43_synthesizer.md R157): an argument is missing; the unit is unsupported; the
sequence of the request, its seed nibble being zero; the sequence of the cleared request and the suggestion. -/
theorem runEncode_cases (T : Tables) (idv unv on off : Bool) (unit : Nibble) (id : Ident) (s : State) :
    runEncode T idv unv on off unit id s = raise .argumentMissing s ∨
    runEncode T idv unv on off unit id s = raise .unitUnsupported s ∨
    ∃ sc, (idv = true ∧ unv = true ∧ off = !on) ∧ usEncode T (idType id) unit on = some sc ∧
      ((idSeed id = 0 ∧ runEncode T idv unv on off unit id s =
          finish { recv := true, txv := true } (writeRecord (build id unit on none)
            { s with raw := synthesize s.raw (pickVariant T id sc) unit, len := 50 })) ∨
        (idSeed id ≠ 0 ∧ runEncode T idv unv on off unit id s =
          raise .consistencyFailure
            { s with raw := synthesize s.raw (pickVariant T id sc) unit, len := 50,
                     sugId := mkId (idType id) 0 (idP1 id) (idP2 id) (idP3 id) })) := by
  by_cases hm : idv = false ∨ unv = false ∨ on = off
  · exact .inl (runEncode_of_argumentMissing T idv unv on off unit id s hm)
  · have hargs : idv = true ∧ unv = true ∧ off = !on := by
      revert idv unv on off; decide
    obtain ⟨rfl, rfl, rfl⟩ := hargs
    cases hsc : usEncode T (idType id) unit on with
    | none => exact .inr (.inl (runEncode_of_unsupported T on unit id s hsc))
    | some sc =>
      refine .inr (.inr ⟨sc, ⟨rfl, rfl, rfl⟩, rfl, ?_⟩)
      by_cases hid : idSeed id = 0
      · exact .inl ⟨hid, runEncode_of_cleared T on unit id sc s hsc hid⟩
      · exact .inr ⟨hid, runEncode_of_seed T on unit id sc s hsc hid⟩

/-! ### Commands that set no flag -/

/-- STATUS is legal and all four flags are 0. -/
def State.noFlags (s : State) : Prop :=
  s.statusLegal ∧ s.recv = false ∧ s.txv = false ∧ s.diagv = false ∧ s.sugv = false

/-- Where no flag is set there is nothing for a flag to promise. -/
theorem flagsHonest_of_noFlags {s : State} (h : s.noFlags) : s.flagsHonest := by
  obtain ⟨hl, hr, ht, hd, hs⟩ := h
  simp [State.flagsHonest, hl, State.recvMeans, State.txvMeans, State.diagvMeans, State.sugvMeans, hr, ht, hd, hs]

/-- Every `raise` writes one of the legal values. -/
theorem raise_statusLegal (k : OutcomeKind) (s : State) : (raise k s).statusLegal := by
  rw [State.statusLegal, raise_status]
  cases k <;> decide

theorem finish_statusLegal {f : StatusFlags} (hf : statusWord .ok f ∈ statusValues) (s : State) :
    (finish f s).statusLegal := hf

/-- Only a ConsistencyFailure raises a flag (60_exceptions.md R204). -/
theorem raise_noFlags {k : OutcomeKind} (hk : k ≠ .consistencyFailure) (s : State) : (raise k s).noFlags :=
  ⟨raise_statusLegal k s, raise_recv k s, raise_txv k s, raise_diagv k s, by simp [hk]⟩

/-- A command whose rule states no flag writes them all 0 (10_state.md R18). -/
theorem finish_noFlags (s : State) : (finish {} s).noFlags :=
  ⟨finish_statusLegal (by decide) s, finish_recv {} s, finish_txv {} s, finish_diagv {} s, finish_sugv {} s⟩

/-- STATUS = 0, its reset value, sets no flag (10_state.md R18, R33). -/
theorem noFlags_of_status_zero {s : State} (h : s.status = 0) : s.noFlags := by
  simp [State.noFlags, State.statusLegal, statusValues, State.recv, State.txv, State.diagv, State.sugv, h]

theorem runFvVal_noFlags (s : State) : (runFvVal s).noFlags := by
  unfold runFvVal
  split
  · exact finish_noFlags _
  · exact raise_noFlags (by decide) _

theorem runPtWr_noFlags (start stop : BitVec 5) (s : State) : (runPtWr start stop s).noFlags := by
  unfold runPtWr
  split
  · exact raise_noFlags (by decide) _
  · exact finish_noFlags _

theorem runUsEnc_noFlags (T : Tables) (on : Bool) (unit : Nibble) (id : Ident) (s : State) :
    (runUsEnc T on unit id s).noFlags := by
  unfold runUsEnc
  split
  · exact raise_noFlags (by decide) _
  · exact finish_noFlags _

/-- Which commands can set a flag, said once (10_state.md R18): a CM.BUILD, an accepted DECODE, and an ENCODE with
both arguments and one flag of a supported unit. -/
theorem commandResult_flag_cases (i : Instr) (s : State) :
    (commandResult i s).noFlags ∨
    (∃ bits on unit id, i = .cmBuild bits on unit id) ∨
    (i = .decode ∧ validate s.raw s.len = true) ∨
    ∃ on unit id sc, i = .encode true true on (!on) unit id ∧
      usEncode Config.tables (idType id) unit on = some sc := by
  cases i with
  | fvVal => exact .inl (runFvVal_noFlags s)
  | ptDem => exact .inl (finish_noFlags _)
  | ptBase => exact .inl (finish_noFlags _)
  | ptWr start stop => exact .inl (runPtWr_noFlags start stop s)
  | ptFoot => exact .inl (finish_noFlags _)
  | scSel id => exact .inl (finish_noFlags _)
  | scDec id => exact .inl (finish_noFlags _)
  | scEnca id => exact .inl (finish_noFlags _)
  | usDec unit id => exact .inl (finish_noFlags _)
  | usEnc on unit id => exact .inl (runUsEnc_noFlags Config.tables on unit id s)
  | cmBuild bits on unit id => exact .inr (.inl ⟨bits, on, unit, id, rfl⟩)
  | decode =>
    cases hv : validate s.raw s.len with
    | true => exact .inr (.inr (.inl ⟨rfl, rfl⟩))
    | false =>
      left
      simp only [commandResult, runDecode_of_rejected Config.tables s hv]
      exact raise_noFlags (by decide) s
  | encode idv unv on off unit id =>
    obtain h | h | ⟨sc, ⟨rfl, rfl, rfl⟩, hsc, -⟩ := runEncode_cases Config.tables idv unv on off unit id s
    · exact .inl (by simp only [commandResult, h]; exact raise_noFlags (by decide) s)
    · exact .inl (by simp only [commandResult, h]; exact raise_noFlags (by decide) s)
    · exact .inr (.inr (.inr ⟨on, unit, id, sc, rfl, hsc⟩))

/-! ### Commands that set flags -/

/-- CM.BUILD sets RECV, and DIAGV where it copies the bit vector (45_builder_and_decode.md R181). -/
theorem runCmBuild_flagsHonest {s : State} {bits on : Bool} {unit : Nibble} {id : Ident}
    (hd : decode s.cmd = .ok (.cmBuild bits on unit id)) : (runCmBuild bits on unit id s).flagsHonest := by
  have hop : opcodeOf s.cmd = 0xB := opcodeOf_of_decode hd
  obtain ⟨rfl, rfl, rfl⟩ := decode_cmBuild_fields hd
  unfold runCmBuild
  split
  · exact ⟨finish_statusLegal (by decide) _, fun _ => .inl ⟨hop, rfl, rfl, rfl⟩,
      fun h => absurd h (by simp), fun _ => ⟨.inl hop, rfl⟩, fun h => absurd h (by simp)⟩
  · exact ⟨finish_statusLegal (by decide) _, fun _ => .inl ⟨hop, rfl, rfl, rfl⟩,
      fun h => absurd h (by simp), fun h => absurd h (by simp), fun h => absurd h (by simp)⟩

/-- An accepted DECODE sets RECV and DIAGV, and the record is what the bit vector decodes to
(45_builder_and_decode.md R183). -/
theorem runDecode_flagsHonest {s : State} (hd : decode s.cmd = .ok .decode) (hv : validate s.raw s.len = true) :
    (runDecode Config.tables s).flagsHonest := by
  have hop : opcodeOf s.cmd = 0xC := opcodeOf_of_decode hd
  rw [runDecode_of_accepted Config.tables s hv]
  exact ⟨finish_statusLegal (by decide) _, fun _ => .inr (.inl ⟨hop, rfl, rfl, rfl⟩),
    fun h => absurd h (by simp), fun _ => ⟨.inr hop, rfl⟩, fun h => absurd h (by simp)⟩

/-- ENCODE of a supported request sets RECV and TXV where the seed nibble is zero, and SUGV where it is not
(43_synthesizer.md R157, R159). -/
theorem runEncode_flagsHonest {s : State} {on : Bool} {unit : Nibble} {id : Ident} {sc : Nibble}
    (hd : decode s.cmd = .ok (.encode true true on (!on) unit id))
    (hsc : usEncode Config.tables (idType id) unit on = some sc) :
    (runEncode Config.tables true true on (!on) unit id s).flagsHonest := by
  have hop : opcodeOf s.cmd = 0xD := opcodeOf_of_decode hd
  obtain ⟨rfl, rfl, rfl⟩ := decode_encode_fields hd
  by_cases hseed : idSeed (idField s.cmd) = 0
  · rw [runEncode_of_cleared Config.tables _ _ _ sc s hsc hseed]
    refine ⟨finish_statusLegal (by decide) _, fun _ => .inr (.inr ?_), fun _ => ?_, fun h => absurd h (by simp),
      fun h => absurd h (by simp)⟩
    · simp [hop, State.recordIs, build]
    · simp [hop, hseed, State.recordIs, build]
  · rw [runEncode_of_seed Config.tables _ _ _ sc s hsc hseed]
    refine ⟨raise_statusLegal _ _, fun h => absurd h (by simp), fun h => absurd h (by simp),
      fun h => absurd h (by simp), fun _ => ?_⟩
    simp only [raise_cmd, raise_sugId]
    exact ⟨hop, (and_F0FFF _).symm⟩

/-- Every command leaves the flags honest about itself, whatever they said before. -/
theorem commandResult_flagsHonest {i : Instr} {s : State} (hd : decode s.cmd = .ok i) :
    (commandResult i s).flagsHonest := by
  obtain h | ⟨bits, on, unit, id, rfl⟩ | ⟨rfl, hv⟩ | ⟨on, unit, id, sc, rfl, hsc⟩ := commandResult_flag_cases i s
  · exact flagsHonest_of_noFlags h
  · exact runCmBuild_flagsHonest hd
  · exact runDecode_flagsHonest hd hv
  · exact runEncode_flagsHonest hd hsc

/-! ### The events of the port -/

/-- The word just written to CMD leaves the flags honest (20_memory.md R44). -/
theorem wordResult_flagsHonest (s : State) : (wordResult s.cmd s).flagsHonest := by
  unfold wordResult
  split
  · next i hd => exact commandResult_flagsHonest hd
  · exact flagsHonest_of_noFlags (raise_noFlags (by decide) s)

/-- No flag speaks of RAW, LEN or WV, and a read-only register is not stored to. -/
theorem storeReg_flagsHonest {r : Reg} {s : State} (v : Nat) (hr : r ≠ .cmd) (h : s.flagsHonest) :
    (storeReg r v s).flagsHonest := by
  cases r with
  | cmd => exact absurd rfl hr
  | _ => exact h

/-- Settles O19, by the six kinds of step of `step_cases`: a command leaves the flags honest whatever they said
before, a reset leaves none set, and every other event leaves CMD, STATUS and what the flags speak of alone. -/
theorem flagsStayHonest : Obligations.FlagsStayHonest := by
  intro s t h hstep
  obtain ⟨-, rfl⟩ | ⟨rest, -, rfl⟩ | ⟨idx, r, rest, -, -, rfl⟩ | ⟨idx, v, r, rest, -, -, -, rfl⟩ |
    ⟨idx, v, r, rest, -, -, -, hr, -, rfl⟩ | ⟨v, rest, -, -, rfl⟩ := step_cases hstep
  · exact h
  · exact flagsHonest_of_noFlags (noFlags_of_status_zero rfl)
  · exact h
  · exact h
  · exact storeReg_flagsHonest v hr h
  · exact wordResult_flagsHonest { s with port := rest, cmd := BitVec.ofNat 32 v }

/-- Settles O20: STATUS = 0 sets no flag. -/
theorem flagsHonestAfterReset : Obligations.FlagsHonestAfterReset := by
  refine ⟨flagsHonest_of_noFlags (noFlags_of_status_zero rfl), fun s h => ?_⟩
  obtain ⟨-, hstatus, -⟩ := h
  exact flagsHonest_of_noFlags (noFlags_of_status_zero hstatus)

end Machine

end Sys2Proof
end

section
/-! SUPPORT. The frame of every command: the registers its rule names and STATUS, everything else as before. -/

namespace Sys2Proof.Machine

open Sys2Proof.Config (Tables)

theorem runFvVal_frame (s : State) : ∃ x, runFvVal s = { s with status := x } := by
  unfold runFvVal
  split <;> exact ⟨_, rfl⟩

theorem runPtWr_frame (start stop : BitVec 5) (s : State) :
    ∃ raw x, runPtWr start stop s = { s with raw := raw, status := x } := by
  unfold runPtWr
  split <;> exact ⟨_, _, rfl⟩

theorem runUsEnc_frame (T : Tables) (on : Bool) (unit : Nibble) (id : Ident) (s : State) :
    ∃ sc x, runUsEnc T on unit id s = { s with resSc := sc, status := x } := by
  unfold runUsEnc
  split <;> exact ⟨_, _, rfl⟩

/-- CM.BUILD keeps DIAG where it has no bits to copy (45_builder_and_decode.md R181). -/
theorem runCmBuild_frame (bits on : Bool) (unit : Nibble) (id : Ident) (s : State) :
    runCmBuild bits on unit id s =
      { s with recId := id, recUnit := unit, recState := BitVec.ofBool on,
               diag := if bits then s.bvr else s.diag, status := if bits then 0x30 else 0x10 } := by
  cases bits <;> rfl

theorem runDecode_frame (T : Tables) (s : State) :
    ∃ v id unit st d x, runDecode T s =
      { s with bvr := v, recId := id, recUnit := unit, recState := st, diag := d, status := x } := by
  cases hv : validate s.raw s.len with
  | true => rw [runDecode_of_accepted T s hv]; exact ⟨_, _, _, _, _, _, rfl⟩
  | false => rw [runDecode_of_rejected T s hv]; exact ⟨_, _, _, _, _, _, rfl⟩

/-- ENCODE writes SUG_ID only where it ends in code 3 (43_synthesizer.md R157). -/
theorem runEncode_frame (T : Tables) (idv unv on off : Bool) (unit : Nibble) (id : Ident) (s : State) :
    ∃ raw len rid ru st sug x,
      runEncode T idv unv on off unit id s =
        { s with raw := raw, len := len, recId := rid, recUnit := ru, recState := st, sugId := sug, status := x } ∧
      (sug ≠ s.sugId → (runEncode T idv unv on off unit id s).code = 3) := by
  obtain h | h | ⟨sc, -, -, ⟨-, h⟩ | ⟨-, h⟩⟩ := runEncode_cases T idv unv on off unit id s
  · rw [h]; exact ⟨_, _, _, _, _, _, _, rfl, fun hne => absurd rfl hne⟩
  · rw [h]; exact ⟨_, _, _, _, _, _, _, rfl, fun hne => absurd rfl hne⟩
  · rw [h, finish, writeRecord]; exact ⟨_, _, _, _, _, _, _, rfl, fun hne => absurd rfl hne⟩
  · rw [h]
    refine ⟨_, _, _, _, _, _, _, rfl, fun _ => ?_⟩
    exact raise_code .consistencyFailure _

/-- Settles O23: command by command, the frame names every register that can change. -/
theorem onlyItsCommandsWriteARegister : Obligations.OnlyItsCommandsWriteARegister := by
  intro i s t h
  rw [exec_eq] at h
  cases h
  cases i with
  | fvVal => obtain ⟨x, h⟩ := runFvVal_frame s; simp [commandResult, h]
  | ptDem => simp [commandResult, runPtDem]
  | ptBase => simp [commandResult, runPtBase]
  | ptWr start stop => obtain ⟨raw, x, h⟩ := runPtWr_frame start stop s; simp [commandResult, h]
  | ptFoot => simp [commandResult, runPtFoot]
  | scSel id => simp [commandResult, runScSel]
  | scDec id => simp [commandResult, runScDec]
  | scEnca id => simp [commandResult, runScEnca]
  | usDec unit id => simp [commandResult, runUsDec]
  | usEnc on unit id => obtain ⟨sc, x, h⟩ := runUsEnc_frame Config.tables on unit id s; simp [commandResult, h]
  | cmBuild bits on unit id => cases bits <;> simp [commandResult, runCmBuild_frame]
  | decode => obtain ⟨v, id, unit, st, d, x, h⟩ := runDecode_frame Config.tables s; simp [commandResult, h]
  | encode idv unv on off unit id =>
    obtain ⟨raw, len, rid, ru, st, sug, x, h, hsug⟩ := runEncode_frame Config.tables idv unv on off unit id s
    rw [h] at hsug
    simpa [commandResult, h] using hsug

end Sys2Proof.Machine
end

section
/-! SUPPORT. The record and the sequence as a reader of the registers sees them: the diagnostic string, and the pairs
and the tail of a synthesized sequence. -/

namespace Sys2Proof.Machine

open Sys2Proof.Config (Tables)

/-! ### The record of a DECODE -/

theorem diagChars_length (d : Bits24) : (diagChars d).length = 24 := by
  simp [diagChars]

/-- Character i of the diagnostic string is position i of the vector (10_state.md R16, R20). -/
theorem diagChars_getElem? (d : Bits24) (i : Nat) (hi : i < 24) :
    (diagChars d)[i]? = some (if bvAt d i then '1' else '0') := by
  rw [diagChars, List.getElem?_map, List.getElem?_eq_getElem (by simpa using hi), List.getElem_finRange]
  rfl

/-- The string of a demodulation shows the trailing elements in order of transmission (45_builder_and_decode.md
R182). -/
theorem diagChars_demod_getElem? (raw : RawSeq) (i : Nat) (hi : i < 24) :
    (diagChars (demod raw))[i]? = some (if raw[2 * i + 1].toNat > 550 then '0' else '1') := by
  rw [diagChars_getElem? _ _ hi, demod_bvAt _ _ hi]
  by_cases h : raw[2 * i + 1].toNat ≤ 550
  · simp [h]
  · simp [h, show 550 < raw[2 * i + 1].toNat by omega]

/-- A record with its diagnostic bits is seen as it was written (10_state.md R20). -/
theorem record?_finish_writeRecord {r : CommandRecord} {d : Bits24} (hd : r.diagnosticBits = some d) (s : State) :
    (finish { recv := true, diagv := true } (writeRecord r s)).record? = some r := by
  obtain ⟨id, unit, st, bits⟩ := r
  cases hd
  simp [State.record?]

/-- REC_STATE as a truth value (10_state.md R20). -/
theorem decide_ofBool_eq_one (b : Bool) : decide (BitVec.ofBool b = 1) = b := by
  cases b <;> decide

/-- Settles O44: an accepted DECODE writes `frameRecord` of the demodulated bits. -/
theorem decodedRecordAsSeen : Obligations.DecodedRecordAsSeen := by
  intro s hlen hlo hhi
  have hv : validate s.raw s.len = true := (validate_eq_true_iff _ _).2 ⟨hlen, hlo, hhi⟩
  refine ⟨_, frameRecord Config.tables (demod s.raw), exec_eq .decode s, ?_⟩
  simp only [commandResult, runDecode_of_accepted Config.tables s hv]
  refine ⟨record?_finish_writeRecord rfl _, rfl, rfl, ?_, rfl, diagChars_length _,
    diagChars_demod_getElem? s.raw⟩
  exact (decide_ofBool_eq_one _).symm

/-! ### A synthesized sequence -/

/-- The bit that a synthesized sequence carries at a position (43_synthesizer.md R155). -/
def synthesizedBit (enc : Ident) (unit : Nibble) (p : Nat) : Bool :=
  if p ≤ 19 then enc.getLsbD (19 - p) else unit.getLsbD (23 - p)

theorem synthesize_lead (raw : RawSeq) (enc : Ident) (unit : Nibble) (p : Nat) (hp : p < 24) :
    (synthesize raw enc unit)[2 * p] = leadOf (synthesizedBit enc unit p) := by
  rw [synthesize_getElem, if_neg (by omega), if_neg (by omega), synthesizedBit]
  simp only [show 2 * p / 2 = p by omega, show 2 * p % 2 = 0 by omega, if_true]
  split <;> rfl

theorem synthesize_trail (raw : RawSeq) (enc : Ident) (unit : Nibble) (p : Nat) (hp : p < 24) :
    (synthesize raw enc unit)[2 * p + 1] = trailOf (synthesizedBit enc unit p) := by
  rw [synthesize_getElem, if_neg (by omega), if_neg (by omega), synthesizedBit]
  simp only [show (2 * p + 1) / 2 = p by omega, show ¬ (2 * p + 1) % 2 = 0 by omega, if_false]
  split <;> rfl

/-- Every pair of a synthesized sequence is one of the two nominal pairs (43_synthesizer.md R155). -/
theorem synthesize_pair (raw : RawSeq) (enc : Ident) (unit : Nibble) (p : Nat) (hp : p < 24) :
    ((synthesize raw enc unit)[2 * p] = 550 ∧ (synthesize raw enc unit)[2 * p + 1] = 1100) ∨
      ((synthesize raw enc unit)[2 * p] = 1100 ∧ (synthesize raw enc unit)[2 * p + 1] = 550) := by
  rw [synthesize_lead _ _ _ _ hp, synthesize_trail _ _ _ _ hp]
  cases synthesizedBit enc unit p
  · exact .inl ⟨leadOf_eq false, trailOf_eq false⟩
  · exact .inr ⟨leadOf_eq true, trailOf_eq true⟩

theorem synthesize_getElem_48 (raw : RawSeq) (enc : Ident) (unit : Nibble) :
    (synthesize raw enc unit)[48] = 550 := synthesize_getElem raw enc unit 48 (by omega)

theorem synthesize_getElem_49 (raw : RawSeq) (enc : Ident) (unit : Nibble) :
    (synthesize raw enc unit)[49] = 7200 := synthesize_getElem raw enc unit 49 (by omega)

/-- Settles O55: of the commands that can set a flag only an ENCODE with a zero seed nibble sets TXV, and it leaves
the synthesized sequence in RAW. -/
theorem txvMeansASequence : Obligations.TxvMeansASequence := by
  intro i s t h htxv
  have ht : commandResult i s = t := Host.Outcome.next.inj ((exec_eq i s).symm.trans h)
  obtain ⟨-, -, htxv', -⟩ | ⟨bits, on, unit, id, rfl⟩ | ⟨rfl, hv⟩ | ⟨on, unit, id, sc, rfl, hsc⟩ :=
    commandResult_flag_cases i s
  · simp [← ht, htxv'] at htxv
  · cases bits <;> simp [← ht, commandResult, runCmBuild] at htxv
  · simp [← ht, commandResult, runDecode_of_accepted Config.tables s hv] at htxv
  · by_cases hseed : idSeed id = 0
    · have hrun := (runEncode_of_cleared Config.tables on unit id sc s hsc hseed).symm.trans ht
      subst hrun
      refine ⟨⟨on, unit, id, rfl, rfl, rfl⟩, rfl, synthesize_pair _ _ _, synthesize_getElem_48 _ _ _,
        synthesize_getElem_49 _ _ _, validate_synthesize _ _ _, ?_, bvUnit_demod_synthesize _ _ _⟩
      exact (recovered_eq _ _ _ _ _).trans ((cleared_eq_iff id).2 hseed)
    · have hrun := (runEncode_of_seed Config.tables on unit id sc s hsc hseed).symm.trans ht
      simp [← hrun] at htxv

end Sys2Proof.Machine
end

section
/-! SUPPORT. The rows of the unit/state tables that the spec gives (10_state.md R28, R29), as the commands use them,
and the scenario of 95_test_vectors.md S7. -/

namespace Sys2Proof.Machine

open Sys2Proof.Config (Tables)

/-! ### The rows the spec gives -/

/-- Under branch A the canonical code of unit 2 and on is 6 (10_state.md R28). -/
theorem usEncode_A_two_on (T : Tables) {t : Nibble} (ht : selectTable t = .A) : usEncode T t 2 true = some 6 := by
  rw [usEncode, ht, usm_A_two_on]
  rfl

/-- Under branch A exactly 10, 6, 1 and 5 are on codes of unit 2 (10_state.md R28). -/
theorem usDecode_A_two (T : Tables) {t : Nibble} (ht : selectTable t = .A) (c : Nibble) :
    usDecode T t 2 c = decide (c ∈ [10#4, 6#4, 1#4, 5#4]) := by
  rw [usDecode, ht, usm_A_two_on]
  revert c; decide

/-- Under branch B units 8 to 15 have no canonical code (10_state.md R29). -/
theorem usEncode_B_high (T : Tables) {t unit : Nibble} (ht : selectTable t = .B) (hu : 8 ≤ unit.toNat) (on : Bool) :
    usEncode T t unit on = none := by
  rw [usEncode, ht, usm_B_high T unit on hu]
  rfl

/-- Under branch B units 8 to 15 decode as off (10_state.md R29, 42_unit_state.md R132). -/
theorem usDecode_B_high (T : Tables) {t unit : Nibble} (ht : selectTable t = .B) (hu : 8 ≤ unit.toNat)
    (c : Nibble) : usDecode T t unit c = false := by
  rw [usDecode, ht, usm_B_high T unit true hu]
  rfl

theorem ofBool_decide_eq_ite (p : Prop) [Decidable p] : BitVec.ofBool (decide p) = if p then 1 else 0 := by
  by_cases h : p <;> simp [h]

/-- Settles O38, by the row USM_A[2][1]. -/
theorem unitTwoUnderBranchA : Obligations.UnitTwoUnderBranchA := by
  intro s id ht
  refine ⟨(exec_eq _ s).trans (congrArg _ (runUsEnc_of_some (usEncode_A_two_on _ ht) s)), ?_⟩
  rw [exec_eq, commandResult, runUsDec, usDecode_A_two _ ht, ofBool_decide_eq_ite]
  rfl

/-- Settles O39, by the absent rows of USM_B. -/
theorem highUnitsUnderBranchB : Obligations.HighUnitsUnderBranchB := by
  intro s id unit on ht hu
  have henc := usEncode_B_high Config.tables ht hu on
  refine ⟨(exec_eq _ s).trans (congrArg _ (runUsEnc_of_none henc s)), ?_,
    (exec_eq _ s).trans (congrArg _ (runEncode_of_unsupported _ on unit id s henc))⟩
  rw [exec_eq, commandResult, runUsDec, usDecode_B_high _ ht hu]
  rfl

/-! ### The tail of a synthesized sequence -/

/-- The encoded third payload nibble stands at positions 16 to 19 (43_synthesizer.md R155). -/
theorem synthesizedBit_code (enc : Ident) (unit : Nibble) (p : Nat) (h16 : 16 ≤ p) (h19 : p ≤ 19) :
    synthesizedBit enc unit p = (idP3 enc).getLsbD (19 - p) := by
  simp [synthesizedBit, idP3, h19, show 19 - p < 4 by omega]

/-- The unit stands at positions 20 to 23 (43_synthesizer.md R155). -/
theorem synthesizedBit_unit (enc : Ident) (unit : Nibble) (p : Nat) (h20 : 20 ≤ p) :
    synthesizedBit enc unit p = unit.getLsbD (23 - p) := if_neg (by omega)

/-- A sequence from a position on begins with the pair of the position. -/
theorem synthesize_drop_pair (raw : RawSeq) (enc : Ident) (unit : Nibble) (p : Nat) (hp : p < 24) :
    (synthesize raw enc unit).toList.drop (2 * p) =
      leadOf (synthesizedBit enc unit p) :: trailOf (synthesizedBit enc unit p) ::
        (synthesize raw enc unit).toList.drop (2 * (p + 1)) := by
  have hlen : (synthesize raw enc unit).toList.length = 50 := Vector.length_toList
  rw [List.drop_eq_getElem_cons (by omega), List.drop_eq_getElem_cons (by omega), Vector.getElem_toList,
    Vector.getElem_toList, synthesize_lead _ _ _ _ hp, synthesize_trail _ _ _ _ hp]
  rfl

/-- The last two elements are a short pulse and the footer gap (43_synthesizer.md R155). -/
theorem synthesize_drop_48 (raw : RawSeq) (enc : Ident) (unit : Nibble) :
    (synthesize raw enc unit).toList.drop 48 = [550, 7200] := by
  rw [List.drop_eq_getElem_cons (by simp), List.drop_eq_getElem_cons (by simp), Vector.getElem_toList,
    Vector.getElem_toList, synthesize_getElem_48, synthesize_getElem_49, List.drop_eq_nil_of_le (by simp)]

/-- The four pairs that carry a nibble, most significant bit first (30_encoding.md R60). -/
def nibblePairs (n : Nibble) : List Dur :=
  [leadOf (n.getLsbD 3), trailOf (n.getLsbD 3), leadOf (n.getLsbD 2), trailOf (n.getLsbD 2),
    leadOf (n.getLsbD 1), trailOf (n.getLsbD 1), leadOf (n.getLsbD 0), trailOf (n.getLsbD 0)]

/-- From position 16 on a synthesized sequence carries the state code, the unit and the footer
(43_synthesizer.md R155). -/
theorem synthesize_drop_32 (raw : RawSeq) (enc : Ident) (unit : Nibble) :
    (synthesize raw enc unit).toList.drop 32 = nibblePairs (idP3 enc) ++ (nibblePairs unit ++ [550, 7200]) := by
  have pair := synthesize_drop_pair raw enc unit
  have code := synthesizedBit_code enc unit
  have unitBit := synthesizedBit_unit enc unit
  rw [pair 16 (by omega), pair 17 (by omega), pair 18 (by omega), pair 19 (by omega), pair 20 (by omega),
    pair 21 (by omega), pair 22 (by omega), pair 23 (by omega), synthesize_drop_48,
    code 16 (by omega) (by omega), code 17 (by omega) (by omega), code 18 (by omega) (by omega),
    code 19 (by omega) (by omega), unitBit 20 (by omega), unitBit 21 (by omega), unitBit 22 (by omega),
    unitBit 23 (by omega)]
  rfl

/-- DECODE of a synthesized sequence reports what the sequence carries (43_synthesizer.md R160). -/
theorem runDecode_of_synthesized (T : Tables) {s : State} {raw : RawSeq} {enc : Ident} {unit : Nibble}
    (hraw : s.raw = synthesize raw enc unit) (hlen : s.len = 50) :
    (runDecode T s).status = 0x30 ∧ (runDecode T s).recId = scDecode T enc ∧ (runDecode T s).recUnit = unit ∧
      (runDecode T s).recState = BitVec.ofBool (usDecode T (idType enc) unit (idP3 enc)) := by
  have hv : validate s.raw s.len = true := by rw [hraw, hlen]; exact validate_synthesize raw enc unit
  rw [runDecode_of_accepted T s hv, hraw]
  simp only [finish_status, finish_recId, finish_recUnit, finish_recState, writeRecord_recId, writeRecord_recUnit,
    writeRecord_recState, frameRecord, build, bvIdent_demod_synthesize, bvUnit_demod_synthesize, and_true]
  decide

/-- Settles O53: the code of the request is 6, the last nibble of the identifier sent, and 6 is an on code. -/
theorem encodeUnitTwoOnScenario : Obligations.EncodeUnitTwoOnScenario := by
  intro s id ht hseed
  refine ⟨_, _, exec_eq _ s, exec_eq _ _, ?_⟩
  have hrun := runEncode_of_cleared Config.tables true 2 id 6 s (usEncode_A_two_on _ ht) hseed
  obtain ⟨c, -, hcode, htype, -⟩ := pickVariant_spec Config.tables id 6
  generalize hgen : commandResult (.encode true true true false 2 id) s = a
  have ha := hgen.symm.trans hrun
  have hraw : a.raw = synthesize s.raw (pickVariant Config.tables id 6) 2 := by rw [ha]; rfl
  have hlen : a.len = 50 := by rw [ha]; rfl
  obtain ⟨hstatus, hid, hunit, hstate⟩ := runDecode_of_synthesized Config.tables hraw hlen
  refine ⟨by rw [ha]; rfl, ?_, hstatus, ?_, hunit, ?_⟩
  · rw [hraw, synthesize_drop_32, hcode]; rfl
  · rw [commandResult, hid, scDecode_pickVariant, (cleared_eq_iff id).2 hseed]
  · rw [commandResult, hstate, htype, hcode, usDecode_A_two _ ht]; rfl

end Sys2Proof.Machine
end

section
/-! SUPPORT. Reset, the rejections while nothing is loaded, saturation, and that STATUS is written and never read. -/

namespace Sys2Proof.Machine

/-- Settles O15 (10_state.md R33). -/
theorem resetState : Obligations.ResetState := ⟨rfl, rfl, rfl⟩

/-! ### Rejection while LEN = 0 -/

theorem validate_of_len_zero (raw : RawSeq) : validate raw 0 = false := rfl

/-- With no capture loaded FV.VAL and DECODE reject (44_frame_validator.md R171, 45_builder_and_decode.md R184). -/
theorem commandResult_of_len_zero {i : Instr} (hi : i = .fvVal ∨ i = .decode) {s : State} (h : s.len = 0) :
    commandResult i s = { s with status := 0x01 } := by
  have hv : validate s.raw s.len = false := by rw [h]; exact validate_of_len_zero s.raw
  obtain rfl | rfl := hi
  · simp only [commandResult, runFvVal, hv]; rfl
  · exact runDecode_of_rejected Config.tables s hv

/-- A host write of a command word to CMD, as a step (20_memory.md R44). -/
theorem step_write_cmd {s : State} {rest : List PortEvent} {v : Nat} {i : Instr}
    (hp : s.port = .write 0x34 v :: rest) (hv : v < 2 ^ 32) (hd : decode (BitVec.ofNat 32 v) = .ok i) :
    step s = .next (commandResult i { s with port := rest, cmd := BitVec.ofNat 32 v }) := by
  simp only [step, hp, portEvent, hostWrite_cmd _ _ hv, wordResult, hd]

theorem step_reset {s : State} {rest : List PortEvent} (hp : s.port = .reset :: rest) :
    step s = .next (platformReset { s with port := rest }) := by
  simp only [step, hp, portEvent]

/-- While LEN = 0 the step that writes a word of FV.VAL or DECODE to CMD rejects. -/
theorem step_rejects_of_len_zero {s : State} {rest : List PortEvent} {v : Nat} (hv : v < 2 ^ 32)
    (hd : decode (BitVec.ofNat 32 v) = .ok .fvVal ∨ decode (BitVec.ofNat 32 v) = .ok .decode) (hlen : s.len = 0)
    (hp : s.port = .write 0x34 v :: rest) :
    step s = .next { s with port := rest, cmd := BitVec.ofNat 32 v, status := 0x01 } := by
  have hstep {i : Instr} (hi : i = .fvVal ∨ i = .decode) (hd : decode (BitVec.ofNat 32 v) = .ok i) :=
    (step_write_cmd hp hv hd).trans (congrArg _ (commandResult_of_len_zero hi hlen))
  exact hd.elim (hstep (.inl rfl)) (hstep (.inr rfl))

/-- Settles O16: LEN = 0 makes the validator reject, and a reset makes LEN 0. -/
theorem rejectsUntilLoaded : Obligations.RejectsUntilLoaded := by
  refine ⟨fun s hlen => ⟨?_, ?_⟩, fun s rest v hv hd => ⟨step_rejects_of_len_zero hv hd, fun hp => ?_⟩⟩
  · rw [exec_eq, commandResult_of_len_zero (.inl rfl) hlen]
  · rw [exec_eq, commandResult_of_len_zero (.inr rfl) hlen]
  · exact ⟨_, step_reset hp, step_rejects_of_len_zero hv hd (afterReset_len _ _ _ _) (afterReset_port _ _ _ _)⟩

/-! ### Saturation -/

/-- A bound below the register's largest value is exceeded with saturation when it is without (10_state.md R13). -/
theorem lt_saturate_iff {width v bound : Nat} (h : bound < 2 ^ width - 1) :
    bound < saturate width v ↔ bound < v := by
  rw [saturate, lt_min_iff, and_iff_left h]

theorem saturate_lt_iff {width v bound : Nat} (h : bound ≤ 2 ^ width - 1) :
    saturate width v < bound ↔ v < bound := by
  rw [saturate, min_lt_iff, or_iff_left (by omega)]

theorem saturate_eq_iff {width v bound : Nat} (h : bound < 2 ^ width - 1) :
    saturate width v = bound ↔ v = bound := by
  rw [saturate]
  omega

theorem saturate_fits (width v : Nat) : saturate width v < 2 ^ width := by
  have := Nat.two_pow_pos width
  rw [saturate]
  omega

/-- Settles O18: every constant compared with is below the largest value of its register. -/
theorem saturationChangesNoComparison : Obligations.SaturationChangesNoComparison := fun d =>
  ⟨saturate_fits 16 d, saturate_fits 8 d, lt_saturate_iff (by decide), saturate_lt_iff (by decide),
    lt_saturate_iff (by decide), saturate_eq_iff (by decide)⟩

/-! ### STATUS is not read -/

/-- Settles O21: every command ends in `raise` or `finish`, which write STATUS whole (10_state.md R18, R19), and
nothing before that reads it. -/
theorem commandsDoNotReadStatus : Obligations.CommandsDoNotReadStatus := by
  intro i s x
  cases i <;> rfl

end Sys2Proof.Machine
end

section
/-! SUPPORT. The host port (20_memory.md R42 to R45): what a read, a write to a storing register, a write to CMD, an
ignored write and a refused access do as one step. -/

namespace Sys2Proof.Machine

/-! ### The register an index names -/

/-- An index names one register only (20_memory.md R40, R49). -/
theorem regAt_eq_some_iff {idx : Nat} {r : Reg} : regAt idx = some r ↔ idx = r.index := by
  constructor
  · exact fun h => (regAt_some h).symm
  · rintro rfl
    exact regAt_index r

/-- Every index below 0x50 names a register (20_memory.md R45). -/
theorem exists_regAt_of_lt {idx : Nat} (h : idx < 0x50) : ∃ r, regAt idx = some r :=
  Option.ne_none_iff_exists'.1 fun hnone => absurd ((regAt_eq_none_iff idx).1 hnone) (by omega)

/-- The read-only registers are those from STATUS on (10_state.md R12). -/
theorem writable_eq_false_iff (r : Reg) : r.writable = false ↔ 0x35 ≤ r.index := by
  cases r with
  | raw i => simp [Reg.writable, Reg.index]; omega
  | var c => simp [Reg.writable, Reg.index]; omega
  | _ => decide

/-- What is left in the port has no influence on a read. -/
theorem readReg_port (r : Reg) (s : State) (rest : List PortEvent) :
    readReg r { s with port := rest } = readReg r s := by
  cases r <;> rfl

/-! ### A write to an existing register -/

theorem writeReg_of_readOnly {r : Reg} (hw : r.writable = false) (idx v : Nat) (s : State) :
    writeReg idx r v s = .next s := by
  simp [writeReg, hw]

theorem writeReg_of_tooWide {r : Reg} (hw : r.writable = true) (idx : Nat) {v : Nat} (hv : 2 ^ r.width ≤ v)
    (s : State) : writeReg idx r v s = .refused (.valueDoesNotFit idx v) := by
  simp [writeReg, hw, Nat.not_lt.2 hv]

theorem writeReg_of_fits {r : Reg} (hw : r.writable = true) (hcmd : r ≠ .cmd) (idx : Nat) {v : Nat}
    (hv : v < 2 ^ r.width) (s : State) : writeReg idx r v s = .next (storeReg r v s) := by
  simp [writeReg, hw, hv, hcmd]

/-! ### The steps -/

section

variable {s : State} {rest : List PortEvent} {idx v : Nat}

theorem step_read (hp : s.port = .read idx :: rest) {r : Reg} (hr : regAt idx = some r) :
    step s = .next { s with port := rest, outputs := s.outputs ++ [readReg r s] } := by
  simp only [step, hp, portEvent, hostRead, hr, readReg_port]

theorem step_write (hp : s.port = .write idx v :: rest) {r : Reg} (hr : regAt idx = some r) :
    step s = writeReg idx r v { s with port := rest } := by
  simp only [step, hp, portEvent, hostWrite, hr]

theorem step_read_of_reserved (hp : s.port = .read idx :: rest) (hr : regAt idx = none) :
    step s = .refused (.reservedIndex idx) := by
  simp only [step, hp, portEvent, hostRead, hr]

theorem step_write_of_reserved (hp : s.port = .write idx v :: rest) (hr : regAt idx = none) :
    step s = .refused (.reservedIndex idx) := by
  simp only [step, hp, portEvent, hostWrite, hr]

/-- RAW, LEN and WV take a value that fits (20_memory.md R43). -/
theorem step_write_stores (hp : s.port = .write idx v :: rest) {r : Reg} (hidx : idx = r.index)
    (hw : r.writable = true) (hcmd : r ≠ .cmd) (hv : v < 2 ^ r.width) :
    step s = .next (storeReg r v { s with port := rest }) :=
  (step_write hp (regAt_eq_some_iff.2 hidx)).trans (writeReg_of_fits hw hcmd idx hv _)

/-- From STATUS on a write is ignored, whatever the value (20_memory.md R43, log entry 6). -/
theorem step_write_ignored (hp : s.port = .write idx v :: rest) {r : Reg} (hr : regAt idx = some r)
    (hidx : 0x35 ≤ idx) : step s = .next { s with port := rest } := by
  have hw : r.writable = false := (writable_eq_false_iff r).2 (regAt_some hr ▸ hidx)
  exact (step_write hp hr).trans (writeReg_of_readOnly hw idx v _)

/-- A read-write register refuses a value that does not fit (20_memory.md R43). -/
theorem step_write_refused (hp : s.port = .write idx v :: rest) {r : Reg} (hidx : idx = r.index)
    (hw : r.writable = true) (hv : 2 ^ r.width ≤ v) : step s = .refused (.valueDoesNotFit idx v) :=
  (step_write hp (regAt_eq_some_iff.2 hidx)).trans (writeReg_of_tooWide hw idx hv _)

/-- A word written to CMD is executed, whether or not it encodes a command (20_memory.md R44). -/
theorem step_write_cmd_executes (hp : s.port = .write 0x34 v :: rest) (hv : v < 2 ^ 32) :
    step s = executeWord (BitVec.ofNat 32 v) { s with port := rest, cmd := BitVec.ofNat 32 v } := by
  simp only [step, hp, portEvent, hostWrite_cmd v _ hv, executeWord_eq]

end

/-- No command word changes CMD (10_state.md R17). -/
theorem wordResult_cmd (w : Word) (s : State) : (wordResult w s).cmd = s.cmd := by
  unfold wordResult
  split
  · next i _ =>
    obtain ⟨-, hcmd, -⟩ := onlyItsCommandsWriteARegister i s _ (exec_eq i s)
    exact hcmd
  · rfl

/-! ### The obligations of the host port -/

/-- Settles O8: the value is that of the register at the index, and each clause names that register. -/
theorem hostReadReturnsTheRegister : Obligations.HostReadReturnsTheRegister := by
  intro s rest idx hp hidx
  obtain ⟨r, hr⟩ := exists_regAt_of_lt hidx
  have reads (q : Reg) (hq : idx = q.index) : readReg r s = readReg q s := by
    rw [Option.some.inj (hr.symm.trans (regAt_eq_some_iff.2 hq))]
  exact ⟨readReg r s, step_read hp hr, fun h => reads (.raw ⟨idx, h⟩) rfl, reads .len, reads .wv, reads .cmd,
    reads .status, reads .bvr, reads .recId, reads .recUnit, reads .recState, reads .diag, reads .sugId,
    reads .tsel, reads .resId, reads .resState, reads .resSc, fun c => reads (.var c)⟩

/-- Settles O9, clause by clause from the steps above. -/
theorem hostWriteStores : Obligations.HostWriteStores := by
  intro s rest idx v hp
  refine ⟨fun h => step_write_stores hp (r := .raw ⟨idx, h⟩) rfl rfl nofun,
    fun h => step_write_stores hp (r := .len) h rfl nofun,
    fun h => step_write_stores hp (r := .wv) h rfl nofun, ?cmd,
    fun r hr hidx _ => step_write_ignored hp hr hidx, ?tooWide⟩
  case cmd =>
    rintro rfl hv
    have hstep := step_write_cmd_executes hp hv
    exact ⟨_, hstep.trans (executeWord_eq _ _), wordResult_cmd _ _, hstep⟩
  case tooWide =>
    rintro (⟨h, hv⟩ | ⟨h, hv⟩ | ⟨h, hv⟩ | ⟨h, hv⟩)
    · exact step_write_refused hp (r := .raw ⟨idx, h⟩) rfl rfl hv
    · exact step_write_refused hp (r := .len) h rfl hv
    · exact step_write_refused hp (r := .wv) h rfl hv
    · exact step_write_refused hp (r := .cmd) h rfl hv

/-- Settles O6: `step_write_cmd`, and `exec` answers the state it speaks of. -/
theorem stepRunsTheDecodedCommand : Obligations.StepRunsTheDecodedCommand :=
  fun _ _ _ i hp hv hd => (step_write_cmd hp hv hd).trans (exec_eq i _).symm

/-- Settles O10: no register from STATUS on is writable. -/
theorem readOnlyWriteIsIgnored : Obligations.ReadOnlyWriteIsIgnored := by
  intro s rest idx v hp hlo hhi
  obtain ⟨r, hr⟩ := exists_regAt_of_lt hhi
  exact step_write_ignored hp hr hlo

/-- Settles O11: no register is at an index of 0x50 and above. -/
theorem reservedIndexIsRefused : Obligations.ReservedIndexIsRefused := by
  intro s rest idx v hidx
  have hr : regAt idx = none := (regAt_eq_none_iff idx).2 hidx
  exact ⟨fun hp => step_read_of_reserved hp hr, fun hp => step_write_of_reserved hp hr⟩

end Sys2Proof.Machine
end

section
/-! SUPPORT. Commands as functions of what they read (20_memory.md R48, R56): every command is idempotent, and PT.DEM
and DECODE read the trailing elements and the footer only. -/

namespace Sys2Proof.Machine

open Sys2Proof.Config (Tables)

/-! ### The pulse functions written twice -/

theorem ptBase_ptBase (raw : RawSeq) : ptBase (ptBase raw) = ptBase raw := by
  ext i hi : 1
  rw [ptBase_getElem, ptBase_getElem raw]
  split <;> rfl

theorem ptFoot_ptFoot (raw : RawSeq) : ptFoot (ptFoot raw) = ptFoot raw :=
  Vector.set_set _ _

theorem ptWrite_ptWrite {n : Nat} (raw : RawSeq) (first last : Nat) (v : BitVec n) (hl : last ≤ 23) :
    ptWrite (ptWrite raw first last v) first last v = ptWrite raw first last v := by
  ext i hi : 1
  rw [ptWrite_getElem _ _ _ _ _ _ hl, ptWrite_getElem raw _ _ _ _ _ hl]
  split <;> rfl

/-- A synthesized sequence keeps nothing of the sequence it is written over (43_synthesizer.md R155). -/
theorem synthesize_synthesize (raw : RawSeq) (enc enc' : Ident) (unit unit' : Nibble) :
    synthesize (synthesize raw enc' unit') enc unit = synthesize raw enc unit := by
  ext i hi : 1
  rw [synthesize_getElem, synthesize_getElem raw]

/-! ### Each command twice -/

@[simp] theorem raise_raise (k k' : OutcomeKind) (s : State) : raise k (raise k' s) = raise k s := rfl

@[simp] theorem finish_finish (f f' : StatusFlags) (s : State) : finish f (finish f' s) = finish f s := rfl

theorem runFvVal_idem (s : State) : runFvVal (runFvVal s) = runFvVal s := by
  cases hv : validate s.raw s.len <;> simp [runFvVal, hv]

theorem runPtBase_idem (s : State) : runPtBase (runPtBase s) = runPtBase s := by
  simp only [runPtBase, finish, ptBase_ptBase]

theorem runPtFoot_idem (s : State) : runPtFoot (runPtFoot s) = runPtFoot s := by
  simp only [runPtFoot, finish, ptFoot_ptFoot]

theorem runPtWr_idem (start stop : BitVec 5) (s : State) :
    runPtWr start stop (runPtWr start stop s) = runPtWr start stop s := by
  by_cases h : stop.toNat < start.toNat ∨ 23 < stop.toNat
  · simp only [runPtWr_of_illegal start stop _ h, raise_raise]
  · rw [not_or, Nat.not_lt, Nat.not_lt] at h
    obtain ⟨hle, h23⟩ := h
    simp only [runPtWr_of_legal start stop _ hle h23, finish, ptWrite_ptWrite _ _ _ _ h23]

theorem runUsEnc_idem (T : Tables) (on : Bool) (unit : Nibble) (id : Ident) (s : State) :
    runUsEnc T on unit id (runUsEnc T on unit id s) = runUsEnc T on unit id s := by
  cases hsc : usEncode T (idType id) unit on with
  | none => simp only [runUsEnc_of_none hsc, raise_raise]
  | some sc => simp only [runUsEnc_of_some hsc]; rfl

/-- CM.BUILD copies BVr, which it does not write (45_builder_and_decode.md R181). -/
theorem runCmBuild_idem (bits on : Bool) (unit : Nibble) (id : Ident) (s : State) :
    runCmBuild bits on unit id (runCmBuild bits on unit id s) = runCmBuild bits on unit id s := by
  cases bits <;> rfl

/-- DECODE reads RAW and LEN, which it does not write (45_builder_and_decode.md R183). -/
theorem runDecode_idem (T : Tables) (s : State) : runDecode T (runDecode T s) = runDecode T s := by
  cases hv : validate s.raw s.len with
  | true => rw [runDecode_of_accepted T s hv]; exact runDecode_of_accepted T _ hv
  | false => rw [runDecode_of_rejected T s hv]; exact runDecode_of_rejected T _ hv

/-- ENCODE writes RAW over whatever stands there, and how it ends depends on the request and the tables only
(43_synthesizer.md R157). -/
theorem runEncode_idem (T : Tables) (idv unv on off : Bool) (unit : Nibble) (id : Ident) (s : State) :
    runEncode T idv unv on off unit id (runEncode T idv unv on off unit id s) =
      runEncode T idv unv on off unit id s := by
  by_cases hm : idv = false ∨ unv = false ∨ on = off
  · simp only [runEncode_of_argumentMissing T idv unv on off unit id _ hm, raise_raise]
  obtain ⟨rfl, rfl, rfl⟩ : idv = true ∧ unv = true ∧ off = !on := by
    revert idv unv on off; decide
  cases hsc : usEncode T (idType id) unit on with
  | none => simp only [runEncode_of_unsupported T on unit id _ hsc, raise_raise]
  | some sc =>
    by_cases hid : idSeed id = 0
    · simp only [runEncode_of_cleared T on unit id sc _ hsc hid, finish, writeRecord, build, Option.getD_none,
        synthesize_synthesize]
    · simp only [runEncode_of_seed T on unit id sc _ hsc hid, raise, synthesize_synthesize]

/-- Every command is idempotent (20_memory.md R48). -/
theorem commandResult_idem (i : Instr) (s : State) : commandResult i (commandResult i s) = commandResult i s := by
  cases i with
  | fvVal => exact runFvVal_idem s
  | ptDem => rfl
  | ptBase => exact runPtBase_idem s
  | ptWr start stop => exact runPtWr_idem start stop s
  | ptFoot => exact runPtFoot_idem s
  | scSel id => rfl
  | scDec id => rfl
  | scEnca id => rfl
  | usDec unit id => rfl
  | usEnc on unit id => exact runUsEnc_idem Config.tables on unit id s
  | cmBuild bits on unit id => exact runCmBuild_idem bits on unit id s
  | decode => exact runDecode_idem Config.tables s
  | encode idv unv on off unit id => exact runEncode_idem Config.tables idv unv on off unit id s

/-- Settles O24: a command answers `commandResult`, which is idempotent. -/
theorem repeatingACommandChangesNothing : Obligations.RepeatingACommandChangesNothing := by
  intro i s t h
  rw [exec_eq] at h
  cases h
  rw [exec_eq, commandResult_idem]

/-! ### What PT.DEM and DECODE read of RAW -/

/-- The validator reads RAW[49] and LEN only (20_memory.md R56). -/
theorem validate_congr {raw raw' : RawSeq} (h : raw[49] = raw'[49]) (len : BitVec 8) :
    validate raw len = validate raw' len := by
  simp only [validate, h]

/-- PT.DEM reads RAW through `demod` only. -/
theorem runPtDem_with_raw {s : State} {raw : RawSeq} (hd : demod raw = demod s.raw) :
    runPtDem { s with raw := raw } = { runPtDem s with raw := raw } := by
  simp only [runPtDem, finish, hd]

/-- DECODE reads RAW through `validate` and `demod` only. -/
theorem runDecode_with_raw (T : Tables) {s : State} {raw : RawSeq} (hd : demod raw = demod s.raw)
    (hv : validate raw s.len = validate s.raw s.len) :
    runDecode T { s with raw := raw } = { runDecode T s with raw := raw } := by
  cases h : validate s.raw s.len with
  | true =>
    rw [runDecode_of_accepted T s h, runDecode_of_accepted T { s with raw := raw } (hv.trans h), hd]
    rfl
  | false =>
    rw [runDecode_of_rejected T s h, runDecode_of_rejected T { s with raw := raw } (hv.trans h)]
    rfl

/-- Settles O45: the trailing elements decide `demod`, and RAW[49] decides `validate`. -/
theorem leadingElementsAreNotRead : Obligations.LeadingElementsAreNotRead := by
  intro s raw htrail
  have hd : demod raw = demod s.raw := demod_congr htrail
  refine ⟨⟨_, exec_eq _ s, ?_⟩, fun hfoot => ⟨_, exec_eq _ s, ?_⟩⟩
  · exact (exec_eq _ _).trans (congrArg _ (runPtDem_with_raw hd))
  · exact (exec_eq _ _).trans (congrArg _ (runDecode_with_raw _ hd (validate_congr hfoot s.len)))

end Sys2Proof.Machine
end

section
/-! SUPPORT. Decoder and encoder against each other (30_encoding.md R66 to R71, R74): the fields of the words of the
three formats, a word masked with the bits of a format, and the command a word of an opcode holds. -/

namespace Sys2Proof

open Laws.OpcodeInWord (opcode)

/-! ### The fields of a word of each format -/

@[simp] theorem startOf_wordW (opc : Nibble) (start stop : BitVec 5) : startOf (wordW opc start stop) = start := by
  apply BitVec.eq_of_getLsbD_eq
  intro i hi
  rw [startOf, wordField_getLsbD, wordW_getLsbD, if_neg (by omega), if_pos (by omega)]
  simp [hi]

@[simp] theorem stopOf_wordW (opc : Nibble) (start stop : BitVec 5) : stopOf (wordW opc start stop) = stop := by
  apply BitVec.eq_of_getLsbD_eq
  intro i hi
  rw [stopOf, wordField_getLsbD, wordW_getLsbD, if_pos (by omega)]
  simp [hi]

section

variable (opc : Nibble) (f27 f26 on off : Bool) (unit : Nibble) (id : Ident)

@[simp] theorem f27Of_wordR : f27Of (wordR opc f27 f26 on off unit id) = f27 :=
  wordR_getLsbD opc f27 f26 on off unit id 27

@[simp] theorem f26Of_wordR : f26Of (wordR opc f27 f26 on off unit id) = f26 :=
  wordR_getLsbD opc f27 f26 on off unit id 26

@[simp] theorem onOf_wordR : onOf (wordR opc f27 f26 on off unit id) = on :=
  wordR_getLsbD opc f27 f26 on off unit id 25

@[simp] theorem offOf_wordR : offOf (wordR opc f27 f26 on off unit id) = off :=
  wordR_getLsbD opc f27 f26 on off unit id 24

@[simp] theorem unitField_wordR : unitField (wordR opc f27 f26 on off unit id) = unit := by
  apply BitVec.eq_of_getLsbD_eq
  intro i hi
  rw [unitField, wordField_getLsbD, wordR_getLsbD, if_neg (by omega), if_pos (by omega)]
  simp [hi]

@[simp] theorem idField_wordR : idField (wordR opc f27 f26 on off unit id) = id := by
  apply BitVec.eq_of_getLsbD_eq
  intro i hi
  rw [idField, wordField_getLsbD, wordR_getLsbD, if_pos (by omega)]
  simp [hi]

end

/-! ### A word masked with the bits of a format -/

/-- Format Z keeps the opcode (30_encoding.md R67). -/
theorem and_maskZ (w : Word) : w &&& wordZ (BitVec.allOnes 4) = wordZ (opcodeOf w) := by
  apply BitVec.eq_of_getLsbD_eq
  intro i hi
  simp only [BitVec.getLsbD_and, wordZ_getLsbD, opcodeOf, wordField_getLsbD, BitVec.getLsbD_allOnes]
  split_ifs
  · exact Bool.and_false _
  · rw [Bool.and_comm, show 28 + (i - 28) = i by omega]

/-- Format W keeps the opcode and the range (30_encoding.md R68). -/
theorem and_maskW (w : Word) :
    w &&& wordW (BitVec.allOnes 4) (BitVec.allOnes 5) (BitVec.allOnes 5) =
      wordW (opcodeOf w) (startOf w) (stopOf w) := by
  apply BitVec.eq_of_getLsbD_eq
  intro i hi
  simp only [BitVec.getLsbD_and, wordW_getLsbD, opcodeOf, startOf, stopOf, wordField_getLsbD,
    BitVec.getLsbD_allOnes]
  split_ifs
  · rw [Bool.and_comm, Nat.zero_add]
  · rw [Bool.and_comm, show 5 + (i - 5) = i by omega]
  · exact Bool.and_false _
  · rw [Bool.and_comm, show 28 + (i - 28) = i by omega]

/-- Format R keeps the opcode, ID, and those of the flags and of UNIT that the command uses (30_encoding.md R69). -/
theorem and_maskR (w : Word) (f27 f26 on off unit : Bool) :
    w &&& wordR (BitVec.allOnes 4) f27 f26 on off (bif unit then BitVec.allOnes 4 else 0) (BitVec.allOnes 20) =
      wordR (opcodeOf w) (f27 && f27Of w) (f26 && f26Of w) (on && onOf w) (off && offOf w)
        (bif unit then unitField w else 0) (idField w) := by
  apply BitVec.eq_of_getLsbD_eq
  intro i hi
  simp only [BitVec.getLsbD_and, wordR_getLsbD, opcodeOf, idField, wordField_getLsbD, BitVec.getLsbD_allOnes]
  rw [Bool.and_comm]
  split_ifs with _ h24 hoff hon hf26 hf27
  · rw [Nat.zero_add]
  · cases unit with
    | false => simp
    | true =>
      simp only [cond_true, unitField, wordField_getLsbD, BitVec.getLsbD_allOnes]
      rw [show 20 + (i - 20) = i by omega]
  · rw [hoff, offOf]
  · rw [hon, onOf]
  · rw [hf26, f26Of]
  · rw [hf27, f27Of]
  · rw [show 28 + (i - 28) = i by omega]

/-! ### The command that a word of an opcode holds -/

/-- The command of the same opcode with the operands that a word holds in the fields of its format (30_encoding.md R68
to R70). -/
def Instr.withFields (w : Word) : Instr → Instr
  | .fvVal => .fvVal
  | .ptDem => .ptDem
  | .ptBase => .ptBase
  | .ptWr _ _ => .ptWr (startOf w) (stopOf w)
  | .ptFoot => .ptFoot
  | .scSel _ => .scSel (idField w)
  | .scDec _ => .scDec (idField w)
  | .scEnca _ => .scEnca (idField w)
  | .usDec _ _ => .usDec (unitField w) (idField w)
  | .usEnc _ _ _ => .usEnc (onOf w) (unitField w) (idField w)
  | .cmBuild _ _ _ _ => .cmBuild (f27Of w) (onOf w) (unitField w) (idField w)
  | .decode => .decode
  | .encode _ _ _ _ _ _ => .encode (f27Of w) (f26Of w) (onOf w) (offOf w) (unitField w) (idField w)

/-- The decoder by the opcode: the row of the table of 30_encoding.md R70. -/
theorem decode_of_opcode {w : Word} {i : Instr} (h : opcodeOf w = opcode i) : decode w = .ok (i.withFields w) := by
  unfold decode
  rw [h]
  cases i <;> rfl

/-- The reserved opcodes (30_encoding.md R71). -/
theorem decode_of_reserved {w : Word} {opc : Nibble} (h : opcodeOf w = opc)
    (hopc : opc = 0x0 ∨ opc = 0xE ∨ opc = 0xF) : decode w = .error (.reservedOpcode opc) := by
  unfold decode
  rw [h]
  obtain rfl | rfl | rfl := hopc <;> rfl

/-- The encoder writes the opcode of the table of 30_encoding.md R70. -/
theorem opcodeOf_encode (i : Instr) : opcodeOf (encode i) = opcode i := by
  cases i with
  | ptWr start stop => exact opcodeOf_wordW _ _ _
  | fvVal | ptDem | ptBase | ptFoot | decode => exact opcodeOf_wordZ _
  | _ => exact opcodeOf_wordR _ _ _ _ _ _ _

/-- The encoder writes each operand into the field it is read from (30_encoding.md R74). -/
theorem withFields_encode (i : Instr) : i.withFields (encode i) = i := by
  cases i <;> simp [Instr.withFields, encode]

/-- The used bits of a word are the word of the command it holds (30_encoding.md R67 to R69, R71). -/
theorem and_usedBits {w : Word} {i : Instr} (h : opcodeOf w = opcode i) :
    w &&& usedBits i = encode (i.withFields w) := by
  have formatZ : w &&& 0xF0000000 = wordZ (opcode i) := h ▸ and_maskZ w
  have formatW : w &&& 0xF00003FF = wordW (opcode i) (startOf w) (stopOf w) := h ▸ and_maskW w
  have formatR (m : Word) (f27 f26 on off unit : Bool)
      (hm : m = wordR (BitVec.allOnes 4) f27 f26 on off (bif unit then BitVec.allOnes 4 else 0) (BitVec.allOnes 20)) :
      w &&& m = wordR (opcode i) (f27 && f27Of w) (f26 && f26Of w) (on && onOf w) (off && offOf w)
        (bif unit then unitField w else 0) (idField w) := by
    rw [hm, and_maskR, h]
  cases i with
  | fvVal | ptDem | ptBase | ptFoot | decode => exact formatZ
  | ptWr start stop => exact formatW
  | scSel id | scDec id | scEnca id => exact formatR 0xF00FFFFF false false false false false (by decide)
  | usDec unit id => exact formatR 0xF0FFFFFF false false false false true (by decide)
  | usEnc on unit id => exact formatR 0xF2FFFFFF false false true false true (by decide)
  | cmBuild bits on unit id => exact formatR 0xFAFFFFFF true false true false true (by decide)
  | encode idv unv on off unit id => exact formatR 0xFFFFFFFF true true true true true (by decide)

/-- Every command uses bits 31:28 (30_encoding.md R66). -/
theorem opcodeOf_and_usedBits (w : Word) (i : Instr) : opcodeOf (w &&& usedBits i) = opcodeOf w := by
  have hall : opcodeOf (usedBits i) = BitVec.allOnes 4 := by cases i <;> simp only [usedBits] <;> decide
  calc opcodeOf (w &&& usedBits i) = opcodeOf w &&& opcodeOf (usedBits i) := BitVec.extractLsb'_and
    _ = opcodeOf w := by rw [hall, BitVec.and_allOnes]

/-- A word that decodes holds its command in its fields. -/
theorem withFields_of_decode {w : Word} {i : Instr} (h : decode w = .ok i) : i.withFields w = i :=
  Except.ok.inj ((decode_of_opcode (opcodeOf_of_decode h)).symm.trans h)

/-! ### The obligations of the encoding -/

/-- Settles O1: the encoded word has the opcode of its command and the operands in their fields. -/
theorem decodeOfEncode : Obligations.DecodeOfEncode := by
  intro i
  rw [decode_of_opcode (opcodeOf_encode i), withFields_encode]

/-- Two commands are not written as one word. -/
theorem encode_injective : Function.Injective encode := fun i j h =>
  Except.ok.inj ((decodeOfEncode i).symm.trans ((congrArg decode h).trans (decodeOfEncode j)))

/-- Settles O2: the operands are the fields of the word, and the mask keeps these fields. -/
theorem encodeOfDecode : Obligations.EncodeOfDecode := by
  intro w i h
  rw [and_usedBits (opcodeOf_of_decode h), withFields_of_decode h]

/-- Settles O3: the used bits hold the opcode, so both words decode by the same row of the table, and to commands
that are written as the same word. -/
theorem ignoredFieldsDoNotDecode : Obligations.IgnoredFieldsDoNotDecode := by
  intro w w' i h hagree
  have hop : opcodeOf w' = opcode i := by
    rw [← opcodeOf_and_usedBits w' i, ← hagree, opcodeOf_and_usedBits, opcodeOf_of_decode h]
  have hsame : i.withFields w' = i :=
    encode_injective (by rw [← and_usedBits hop, ← hagree, encodeOfDecode w i h])
  rw [decode_of_opcode hop, hsame]

/-- The encoder sets used bits only (30_encoding.md R71: "An assembler writes ignored fields as 0"). -/
theorem encode_and_usedBits (i : Instr) : encode i &&& usedBits i = encode i :=
  (encodeOfDecode (encode i) i (decodeOfEncode i)).symm

/-- Settles O4: the thirteen rows of `decode_of_opcode` and the three reserved opcodes. -/
theorem opcodeMap : Obligations.OpcodeMap := by
  intro w opc unit id
  have row (i : Instr) (h : opc = (opcode i).toNat) : decode w = .ok (i.withFields w) :=
    decode_of_opcode (BitVec.eq_of_toNat_eq h)
  have reserved (n : Nibble) (hn : n = 0x0 ∨ n = 0xE ∨ n = 0xF) (h : opc = n.toNat) :
      decode w = .error (.reservedOpcode n) :=
    decode_of_reserved (BitVec.eq_of_toNat_eq h) hn
  exact ⟨reserved 0x0 (by decide), row .fvVal, row .ptDem, row .ptBase, row (.ptWr 0 0), row .ptFoot,
    row (.scSel 0), row (.scDec 0), row (.scEnca 0), row (.usDec 0 0), row (.usEnc false 0 0),
    row (.cmBuild false false 0 0), row .decode, row (.encode false false false false 0 0),
    reserved 0xE (by decide), reserved 0xF (by decide)⟩

/-- Settles O5 by running the decoder on each word. -/
theorem writtenOutWordsDecode : Obligations.WrittenOutWordsDecode :=
  ⟨rfl, rfl, rfl, rfl, rfl, rfl, rfl, rfl, rfl, rfl, rfl⟩

end Sys2Proof
end

section
/-! SUPPORT. The illegal words (30_encoding.md R71): the outcome kinds of each command, and that no command reads
CMD. -/

namespace Sys2Proof.Machine

/-! ### The outcome kinds -/

/-- Every command ends in one of the kinds of its row (60_exceptions.md R201). -/
theorem commandResult_kind (i : Instr) (s : State) : ∃ k ∈ kindsOf i, (commandResult i s).code = kindCode k := by
  have ok (f : StatusFlags) (t : State) (h : .ok ∈ kindsOf i) : ∃ k ∈ kindsOf i, (finish f t).code = kindCode k :=
    ⟨.ok, h, finish_code f t⟩
  have failed (K : OutcomeKind) (t : State) (h : K ∈ kindsOf i) : ∃ k ∈ kindsOf i, (raise K t).code = kindCode k :=
    ⟨K, h, raise_code K t⟩
  cases i with
  | fvVal =>
    rw [commandResult, runFvVal]
    split
    · exact ok _ _ (by simp [kindsOf])
    · exact failed .frameRejected _ (by simp [kindsOf])
  | ptWr start stop =>
    rw [commandResult, runPtWr]
    split
    · exact failed .illegalCommand _ (by simp [kindsOf])
    · exact ok _ _ (by simp [kindsOf])
  | usEnc on unit id =>
    rw [commandResult, runUsEnc]
    split
    · exact failed .unitUnsupported _ (by simp [kindsOf])
    · exact ok _ _ (by simp [kindsOf])
  | cmBuild bits on unit id => cases bits <;> exact ok _ _ (by simp [kindsOf])
  | decode =>
    cases hv : validate s.raw s.len with
    | true => rw [commandResult, runDecode_of_accepted _ s hv]; exact ok _ _ (by simp [kindsOf])
    | false => rw [commandResult, runDecode_of_rejected _ s hv]; exact failed .frameRejected _ (by simp [kindsOf])
  | encode idv unv on off unit id =>
    rw [commandResult]
    obtain h | h | ⟨sc, -, -, ⟨-, h⟩ | ⟨-, h⟩⟩ := runEncode_cases Config.tables idv unv on off unit id s <;>
      rw [h]
    · exact failed .argumentMissing _ (by simp [kindsOf])
    · exact failed .unitUnsupported _ (by simp [kindsOf])
    · exact ok _ _ (by simp [kindsOf])
    · exact failed .consistencyFailure _ (by simp [kindsOf])
  | _ => exact ok _ _ (by simp [kindsOf])

/-- Among the commands only a PT.WR with an illegal range ends in IllegalCommand (30_encoding.md R71). -/
theorem commandResult_code_of_wellFormed {i : Instr} (h : i.wellFormed = true) (s : State) :
    (commandResult i s).code ≠ 5 := by
  have legal (hk : .illegalCommand ∉ kindsOf i) : (commandResult i s).code ≠ 5 := by
    obtain ⟨k, hmem, hcode⟩ := commandResult_kind i s
    rw [hcode]
    cases k with
    | illegalCommand => exact absurd hmem hk
    | _ => decide
  cases i with
  | ptWr start stop =>
    obtain ⟨hle, h23⟩ : start.toNat ≤ stop.toNat ∧ stop.toNat ≤ 23 := by
      simpa [Instr.wellFormed, legalRange] using h
    rw [commandResult, runPtWr_of_legal start stop s hle h23, finish_code]
    decide
  | _ => exact legal (by simp [kindsOf])

/-! ### CMD is not read -/

/-- No command reads or writes CMD (10_state.md R17). -/
theorem commandResult_with_cmd (i : Instr) (s : State) (x : Word) :
    commandResult i { s with cmd := x } = { commandResult i s with cmd := x } := by
  cases i with
  | fvVal => simp only [commandResult, runFvVal]; split <;> rfl
  | ptWr start stop => simp only [commandResult, runPtWr]; split <;> rfl
  | usEnc on unit id => simp only [commandResult, runUsEnc]; split <;> rfl
  | cmBuild bits on unit id => cases bits <;> rfl
  | decode => simp only [commandResult, runDecode]; split <;> rfl
  | encode idv unv on off unit id =>
    simp only [commandResult, runEncode, encodeWith]
    split
    · rfl
    · split
      · rfl
      · split <;> rfl
  | _ => rfl

/-! ### Illegal words -/

/-- A word of a reserved opcode, or a PT.WR word with an illegal range (30_encoding.md R71). -/
def illegalWord (w : Word) : Prop :=
  (opcodeOf w).toNat = 0x0 ∨ (opcodeOf w).toNat = 0xE ∨ (opcodeOf w).toNat = 0xF ∨
    ((opcodeOf w).toNat = 0x4 ∧ ((stopOf w).toNat < (startOf w).toNat ∨ 23 < (stopOf w).toNat))

theorem wordResult_of_illegal {w : Word} (h : illegalWord w) (s : State) :
    wordResult w s = { s with status := 0x05 } := by
  have reserved {opc : Nibble} (h : (opcodeOf w).toNat = opc.toNat) (hopc : opc = 0x0 ∨ opc = 0xE ∨ opc = 0xF) :
      wordResult w s = { s with status := 0x05 } := by
    rw [wordResult, decode_of_reserved (BitVec.eq_of_toNat_eq h) hopc]; rfl
  obtain h | h | h | ⟨h, hrange⟩ := h
  · exact reserved (opc := 0x0) h (by decide)
  · exact reserved (opc := 0xE) h (by decide)
  · exact reserved (opc := 0xF) h (by decide)
  · have hd : decode w = .ok (.ptWr (startOf w) (stopOf w)) :=
      decode_of_opcode (i := .ptWr 0 0) (BitVec.eq_of_toNat_eq h)
    rw [wordResult, hd]
    exact runPtWr_of_illegal _ _ s hrange

/-- The decoder rejects reserved opcodes only. -/
theorem reserved_of_decode_error {w : Word} {e : DecodeError} (h : decode w = .error e) :
    (opcodeOf w).toNat = 0x0 ∨ (opcodeOf w).toNat = 0xE ∨ (opcodeOf w).toNat = 0xF := by
  have hlt := (opcodeOf w).isLt
  unfold decode at h
  split at h <;> cases h
  simp only [imp_false] at *
  omega

/-- Every other word is the word of a legal command. -/
theorem decode_of_not_illegal {w : Word} (h : ¬ illegalWord w) : ∃ i, decode w = .ok i ∧ i.wellFormed = true := by
  simp only [illegalWord, not_or] at h
  obtain ⟨h0, hE, hF, hrange⟩ := h
  cases hd : decode w with
  | error e => obtain h | h | h := reserved_of_decode_error hd <;> contradiction
  | ok i =>
    refine ⟨i, rfl, ?_⟩
    cases i with
    | ptWr start stop =>
      have hop : (opcodeOf w).toNat = 0x4 := congrArg BitVec.toNat (opcodeOf_of_decode hd)
      obtain ⟨rfl, rfl⟩ := Instr.ptWr.inj (withFields_of_decode hd)
      have : (startOf w).toNat ≤ (stopOf w).toNat ∧ (stopOf w).toNat ≤ 23 := by omega
      simpa [Instr.wellFormed, legalRange] using this
    | _ => rfl

/-- Settles O7: `wordResult_of_illegal` for the illegal words; the kinds of a legal command for the others; and two
words that decode alike run one command, which does not read CMD. -/
theorem illegalWordsAndNoOthers : Obligations.IllegalWordsAndNoOthers := by
  refine ⟨encode_and_usedBits, fun s rest v hp hv => ?_⟩
  have hstep := (step_write_cmd_executes hp hv).trans (executeWord_eq _ _)
  refine ⟨fun h => ?illegal, fun h => ?legal, fun v' i t hv' hd hagree ht => ?ignored⟩
  case illegal => rw [hstep, wordResult_of_illegal h]
  case legal =>
    obtain ⟨i, hd, hwf⟩ := decode_of_not_illegal h
    refine ⟨_, hstep, wordResult_cmd _ _, ?_⟩
    rw [wordResult, hd]
    exact commandResult_code_of_wellFormed hwf _
  case ignored =>
    have hd' : decode (BitVec.ofNat 32 v') = .ok i := ignoredFieldsDoNotDecode _ _ i hd hagree
    obtain rfl := Host.Outcome.next.inj ((step_write_cmd hp hv hd).symm.trans ht)
    rw [step_write_cmd rfl hv' hd', ← commandResult_with_cmd]

end Sys2Proof.Machine
end

section
/-! SUPPORT. The run of the writes of LDCAP (30_encoding.md R74). -/

namespace Sys2Proof.Machine

/-- The writes of a list of values to consecutive registers from an index on. -/
def writesFrom (k : Nat) (vs : List Nat) : List PortEvent :=
  (vs.zipIdx k).map fun p => PortEvent.write p.2 p.1

/-- RAW with a list of values from an index on. -/
def loadFrom (k : Nat) (vs : List Nat) (raw : RawSeq) : RawSeq :=
  Vector.ofFn fun i : Fin 50 =>
    if h : k ≤ i.val ∧ i.val - k < vs.length then BitVec.ofNat 16 vs[i.val - k] else raw[i.val]

@[simp] theorem loadFrom_nil (k : Nat) (raw : RawSeq) : loadFrom k [] raw = raw := by
  ext i hi : 1
  simp [loadFrom]

theorem loadFrom_cons {k : Nat} (hk : k < 50) (v : Nat) (vs : List Nat) (raw : RawSeq) :
    loadFrom k (v :: vs) raw = loadFrom (k + 1) vs (raw.set k (BitVec.ofNat 16 v)) := by
  ext i hi : 1
  simp only [loadFrom, Vector.getElem_ofFn, Vector.getElem_set, List.length_cons]
  obtain hlt | rfl | hgt := Nat.lt_trichotomy i k
  · simp [show ¬ k ≤ i by omega, show ¬ k + 1 ≤ i by omega, show ¬ k = i by omega]
  · simp
  · obtain ⟨j, rfl⟩ := Nat.exists_eq_add_of_lt hgt
    simp [show k + j + 1 - k = j + 1 by omega, show k + j + 1 - (k + 1) = j by omega,
      show k ≤ k + j + 1 by omega, show ¬ k = k + j + 1 by omega]

/-- The run of these writes, where the registers exist and the values fit (20_memory.md R43). -/
theorem run_writesFrom {vs : List Nat} {rest : List PortEvent} (hfit : ∀ v ∈ vs, v < 2 ^ 16) :
    ∀ {k : Nat} {s : State}, k + vs.length ≤ 50 → s.port = writesFrom k vs ++ rest →
      core.run vs.length s = .next { s with port := rest, raw := loadFrom k vs s.raw } := by
  induction vs with
  | nil =>
    rintro k s - rfl
    simp [Host.Core.run]
  | cons v vs ih =>
    intro k s hk hp
    rw [List.length_cons] at hk ⊢
    have hstep := step_write_stores hp (r := .raw ⟨k, by omega⟩) rfl rfl nofun (hfit v List.mem_cons_self)
    rw [run_succ_of_step hstep, loadFrom_cons (by omega)]
    exact ih (fun w hw => hfit w (List.mem_cons_of_mem v hw)) (by omega) rfl

/-- Settles O17: the writes to RAW, then the one to LEN. -/
theorem loadCapture : Obligations.LoadCapture := by
  intro s rest n vs hlen hfit hp
  have hevents : ldcap n vs ++ rest = writesFrom 0 vs ++ (.write 0x32 (min n 255) :: rest) := by
    simp [ldcap, writesFrom, ← hlen]
  have hraw := run_writesFrom hfit (by omega) (hp.trans hevents)
  have hstep := step_write_stores (s := { s with port := .write 0x32 (min n 255) :: rest, raw := loadFrom 0 vs s.raw })
    rfl (r := .len) rfl rfl nofun (show min n 255 < 2 ^ 8 by omega)
  rw [run_add hraw, run_succ_of_step hstep]
  simp [Host.Core.run, storeReg, loadFrom]

end Sys2Proof.Machine
end

section
/-! SUPPORT. The pulse-timing commands (40_pulse_timing.md): what PT.WR, PT.BASE and PT.FOOT leave at each pair and
each other element, and in which orders they may be given. -/

namespace Sys2Proof.Machine

open Sys2Proof.Laws.OpcodeInWord (opcode)

/-- Bits 31:28 alone choose the command (30_encoding.md R70); its operands are the fields of the word. -/
theorem decode_of_opcode_toNat {w : Word} (i : Instr) (h : (w.extractLsb' 28 4).toNat = (opcode i).toNat) :
    decode w = .ok (i.withFields w) :=
  decode_of_opcode (BitVec.eq_of_toNat_eq h)

/-! ### PT.DEM -/

/-- PT.DEM where the demodulation is known (40_pulse_timing.md R91). -/
theorem exec_ptDem_of_demod {s : State} {v : Bits24} (h : demod s.raw = v) :
    exec .ptDem s = .next { s with bvr := v, status := 0x00 } := by
  subst h
  rfl

/-! ### PT.WR by pairs -/

section
variable {n first last p : Nat} (raw : RawSeq) (v : BitVec n)

theorem ptWrite_lead (hl : last ≤ 23) (hfirst : first ≤ p) (hlast : p ≤ last) :
    (ptWrite raw first last v)[2 * p] = leadOf (v.getLsbD (last - p)) := by
  rw [ptWrite_getElem _ _ _ _ _ _ hl]
  simp [show 2 * p / 2 = p by omega, hfirst, hlast]

theorem ptWrite_trail (hl : last ≤ 23) (hfirst : first ≤ p) (hlast : p ≤ last) :
    (ptWrite raw first last v)[2 * p + 1] = trailOf (v.getLsbD (last - p)) := by
  rw [ptWrite_getElem _ _ _ _ _ _ hl]
  simp [show (2 * p + 1) / 2 = p by omega, show (2 * p + 1) % 2 = 1 by omega, hfirst, hlast]

theorem ptWrite_outside {i : Nat} (hi : i < 50) (hl : last ≤ 23) (hout : i < 2 * first ∨ 2 * last + 1 < i) :
    (ptWrite raw first last v)[i] = raw[i] := by
  rw [ptWrite_getElem _ _ _ _ _ _ hl, if_neg (by omega)]

end

/-! ### PT.BASE by pairs -/

theorem ptBase_pair (raw : RawSeq) {p : Nat} (hp : p < 24) :
    (ptBase raw)[2 * p] = 550 ∧ (ptBase raw)[2 * p + 1] = 1100 := by
  rw [ptBase_getElem, ptBase_getElem]
  simp [show ¬ 2 * p = 49 by omega, show ¬ 2 * p + 1 = 49 by omega, show (2 * p + 1) % 2 = 1 by omega, durOf]

theorem ptBase_getElem_48 (raw : RawSeq) : (ptBase raw)[48] = 550 := ptBase_getElem raw 48 (by omega)

theorem ptBase_getElem_49 (raw : RawSeq) : (ptBase raw)[49] = raw[49] := ptBase_getElem raw 49 (by omega)

/-! ### PT.FOOT, which then passes FV.VAL -/

theorem ptFoot_getElem_49 (raw : RawSeq) : (ptFoot raw)[49] = 7200 := ptFoot_getElem raw 49 (by omega)

theorem ptFoot_getElem_of_lt (raw : RawSeq) {i : Nat} (hi : i < 49) : (ptFoot raw)[i] = raw[i] := by
  rw [ptFoot_getElem, if_neg (by omega)]

/-- 7200 is within the footer window (40_pulse_timing.md R98). -/
theorem validate_ptFoot (raw : RawSeq) : validate (ptFoot raw) 50 = true := by
  rw [validate_eq_true_iff, ptFoot_getElem_49]
  decide

/-- FV.VAL on an accepted frame (44_frame_validator.md R171). -/
theorem exec_fvVal_of_accepted {s : State} (h : validate s.raw s.len = true) :
    exec .fvVal s = .next { s with status := 0x00 } :=
  congrArg Host.Outcome.next (if_pos h)

/-! ### The orders of the three commands (70_reset_and_hazards.md R240) -/

theorem ptBase_ptFoot (raw : RawSeq) : ptBase (ptFoot raw) = ptFoot (ptBase raw) := by
  ext i hi : 1
  simp only [ptBase_getElem, ptFoot_getElem]
  split <;> rfl

theorem ptWrite_ptFoot {n : Nat} (raw : RawSeq) (first last : Nat) (v : BitVec n) (hl : last ≤ 23) :
    ptWrite (ptFoot raw) first last v = ptFoot (ptWrite raw first last v) := by
  ext i hi : 1
  simp only [ptWrite_getElem _ _ _ _ _ _ hl, ptFoot_getElem]
  by_cases h49 : i = 49
  · rw [if_neg (by omega), if_pos h49, if_pos h49]
  · simp only [h49, if_false]

/-- PT.BASE erases what PT.WR wrote. -/
theorem ptBase_ptWrite {n : Nat} (raw : RawSeq) (first last : Nat) (v : BitVec n) (hl : last ≤ 23) :
    ptBase (ptWrite raw first last v) = ptBase raw := by
  ext i hi : 1
  rw [ptBase_getElem, ptBase_getElem]
  by_cases h49 : i = 49
  · subst h49
    exact ptWrite_outside raw v hi hl (.inr (by omega))
  · simp only [h49, if_false]

/-! ### The commands one by one -/

/-- Settles O25: PT.DEM writes `demod` of RAW to BV. -/
theorem ptDemDemodulates : Obligations.PtDemDemodulates :=
  ⟨fun _ => decode_of_opcode_toNat .ptDem, fun s => ⟨_, exec_eq .ptDem s, demod_getLsbD s.raw, rfl⟩⟩

/-- Settles O26: PT.BASE writes `ptBase` of RAW. -/
theorem ptBaseWritesTheBaseline : Obligations.PtBaseWritesTheBaseline :=
  ⟨fun _ => decode_of_opcode_toNat .ptBase, fun s => ⟨_, exec_eq .ptBase s, fun _ => ptBase_pair s.raw,
    ptBase_getElem_48 s.raw, ptBase_getElem_49 s.raw, demod_ptBase s.raw, rfl⟩⟩

/-- Settles O27: PT.WR writes `ptWrite` of RAW where its range is legal, and raises IllegalCommand where not. -/
theorem ptWrWritesTheRange : Obligations.PtWrWritesTheRange := by
  refine ⟨fun _ => decode_of_opcode_toNat (.ptWr 0 0), fun s start stop =>
    ⟨fun hle h23 => ?legal, fun h => ?illegal⟩⟩
  case legal =>
    refine ⟨_, congrArg Host.Outcome.next (runPtWr_of_legal start stop s hle h23),
      fun p _ hstart hstop => ⟨?_, ?_⟩, fun i hi => ptWrite_outside s.raw s.wv hi h23, rfl⟩
    · exact (ptWrite_lead s.raw s.wv h23 hstart hstop).trans (leadOf_eq _)
    · exact (ptWrite_trail s.raw s.wv h23 hstart hstop).trans (trailOf_eq _)
  case illegal => exact congrArg Host.Outcome.next (runPtWr_of_illegal start stop s h)

/-- Settles O28: PT.FOOT writes `ptFoot` of RAW, which the validator accepts. -/
theorem ptFootWritesTheFooter : Obligations.PtFootWritesTheFooter := by
  refine ⟨fun _ => decode_of_opcode_toNat .ptFoot, fun s => ⟨_, exec_eq .ptFoot s, ptFoot_getElem_49 s.raw,
    fun _ => ptFoot_getElem_of_lt s.raw, fun hlen => exec_fvVal_of_accepted ?_, rfl⟩⟩
  change validate (ptFoot s.raw) s.len = true
  rw [hlen, validate_ptFoot]

/-! ### The modulator -/

/-- The sequence that the three commands leave in RAW (40_pulse_timing.md R99). -/
def modulated (raw : RawSeq) (v : Bits24) : RawSeq := ptFoot (ptWrite (ptBase raw) 0 23 v)

theorem modulated_pair (raw : RawSeq) (v : Bits24) {p : Nat} (hp : p < 24) :
    ((modulated raw v)[2 * p] = 550 ∧ (modulated raw v)[2 * p + 1] = 1100) ∨
      ((modulated raw v)[2 * p] = 1100 ∧ (modulated raw v)[2 * p + 1] = 550) := by
  rw [modulated, ptFoot_getElem_of_lt _ (by omega), ptFoot_getElem_of_lt _ (by omega),
    ptWrite_lead _ _ (by omega) (by omega) (by omega), ptWrite_trail _ _ (by omega) (by omega) (by omega)]
  cases v.getLsbD (23 - p)
  · exact .inl ⟨leadOf_eq false, trailOf_eq false⟩
  · exact .inr ⟨leadOf_eq true, trailOf_eq true⟩

theorem modulated_getElem_48 (raw : RawSeq) (v : Bits24) : (modulated raw v)[48] = 550 := by
  rw [modulated, ptFoot_getElem_of_lt _ (by omega), ptWrite_outside _ _ (by omega) (by omega) (by omega),
    ptBase_getElem_48]

theorem demod_modulated (raw : RawSeq) (v : Bits24) : demod (modulated raw v) = v := by
  rw [modulated, demod_ptFoot, demod_ptWrite_all]

/-- Settles O29: the three commands leave `modulated` in RAW; PT.FOOT commutes with the other two, and PT.BASE erases
what PT.WR wrote. -/
theorem modulatorSequence : Obligations.ModulatorSequence := by
  intro s v
  refine ⟨_, _, _, exec_eq .ptBase s, exec_ptWr_0_23 _, exec_eq .ptFoot _, fun _ => modulated_pair s.raw v,
    modulated_getElem_48 s.raw v, ptFoot_getElem_49 _, exec_fvVal_of_accepted (validate_ptFoot _),
    exec_ptDem_of_demod (demod_modulated s.raw v), ?footFirst, ?footSecond, ptBase_ptWrite s.raw 0 23 v (by omega)⟩
  case footFirst =>
    rw [ptBase_ptFoot, ptWrite_ptFoot _ _ _ _ (by omega)]
    rfl
  case footSecond => exact ptWrite_ptFoot (ptBase s.raw) 0 23 v (by omega)

end Sys2Proof.Machine
end

section
/-! SUPPORT. The cipher commands (41_cipher.md): the two branches, the decoded identifier nibble by nibble, and the
sixteen entries that SC.ENCA stores, by their seeds and their final nibbles. -/

namespace Sys2Proof.Machine

open Sys2Proof.Config (Tables)

/-! ### Encoding undoes decoding -/

section
variable (T : Tables) (t d1 d2 d3 c : Nibble)

@[simp] theorem idType_variantOf : idType (variantOf T t d1 d2 d3 c) = t := idType_mkId _ _ _ _ _

@[simp] theorem idSeed_variantOf : idSeed (variantOf T t d1 d2 d3 c) = c := idSeed_mkId _ _ _ _ _

@[simp] theorem idP3_variantOf : idP3 (variantOf T t d1 d2 d3 c) = finalNibble T t d1 d2 d3 c := idP3_mkId _ _ _ _ _

theorem finalNibble_bijective : Function.Bijective (finalNibble T t d1 d2 d3) :=
  ⟨finalNibble_injective T t d1 d2 d3, finalNibble_surjective T t d1 d2 d3⟩

end

section
variable (T : Tables) (enc : Ident)

@[simp] theorem idP1_scDecode :
    idP1 (scDecode T enc) = idP1 enc ^^^ sbox T (selectTable (idType enc)) (idSeed enc) := idP1_mkId _ _ _ _ _

@[simp] theorem idP2_scDecode :
    idP2 (scDecode T enc) = idP2 enc ^^^ sbox T (selectTable (idType enc)) (idP1 enc) := idP2_mkId _ _ _ _ _

@[simp] theorem idP3_scDecode :
    idP3 (scDecode T enc) = idP3 enc ^^^ sbox T (selectTable (idType enc)) (idP2 enc) := idP3_mkId _ _ _ _ _

/-- An encoded identifier is the variant of its own seed that its decoded identifier has (41_cipher.md R114). -/
theorem variantOf_scDecode :
    variantOf T (idType enc) (idP1 (scDecode T enc)) (idP2 (scDecode T enc)) (idP3 (scDecode T enc)) (idSeed enc) =
      enc := by
  have cancel (x e : Nibble) : x ^^^ (e ^^^ x) = e := by
    rw [BitVec.xor_comm e x, ← BitVec.xor_assoc, BitVec.xor_self, BitVec.zero_xor]
  simp only [variantOf, encodeChain, idP1_scDecode, idP2_scDecode, idP3_scDecode, cancel, mkId_nibbles]

end

/-- Settles O33: the encoding is `variantOf` the seed; it decodes to the identifier, and it is every encoding. -/
theorem oneEncodingPerSeed : Obligations.OneEncodingPerSeed := by
  intro T id c hid
  refine ⟨variantOf T (idType id) (idP1 id) (idP2 id) (idP3 id) c, ⟨idSeed_variantOf _ _ _ _ _ _, ?decodes⟩, ?unique⟩
  case decodes => rw [scDecode_variantOf, (cleared_eq_iff id).2 hid]
  case unique =>
    rintro enc ⟨rfl, rfl⟩
    rw [idType_scDecode, variantOf_scDecode]

/-! ### The entries of VAR -/

theorem ofNat_val_eq_iff (k : Fin 16) (x : Nibble) : BitVec.ofNat 4 k.val = x ↔ k = x.toFin := by
  rw [← BitVec.toNat_inj, Fin.ext_iff, BitVec.toNat_ofNat, Nat.mod_eq_of_lt k.isLt]
  rfl

section
variable (T : Tables) (t d1 d2 d3 : Nibble)

/-- The entry at an index of VAR (41_cipher.md R116). -/
theorem encodeAllVariants_getElem (k : Fin 16) :
    ∃ c, finalNibble T t d1 d2 d3 c = BitVec.ofNat 4 k.val ∧
      (encodeAllVariants T t d1 d2 d3)[k] = variantOf T t d1 d2 d3 c := by
  obtain ⟨c, hc, he⟩ := encodeAllVariants_entry T t d1 d2 d3 (BitVec.ofNat 4 k.val)
  refine ⟨c, hc, he ▸ ?_⟩
  simp

theorem idType_encodeAllVariants (k : Fin 16) : idType (encodeAllVariants T t d1 d2 d3)[k] = t := by
  obtain ⟨c, -, he⟩ := encodeAllVariants_getElem T t d1 d2 d3 k
  rw [he, idType_variantOf]

theorem idP3_encodeAllVariants (k : Fin 16) : idP3 (encodeAllVariants T t d1 d2 d3)[k] = BitVec.ofNat 4 k.val := by
  obtain ⟨c, hc, he⟩ := encodeAllVariants_getElem T t d1 d2 d3 k
  rw [he, idP3_variantOf, hc]

theorem scDecode_encodeAllVariants (k : Fin 16) :
    scDecode T (encodeAllVariants T t d1 d2 d3)[k] = mkId t 0 d1 d2 d3 := by
  obtain ⟨c, -, he⟩ := encodeAllVariants_getElem T t d1 d2 d3 k
  rw [he, scDecode_variantOf]

/-- The entries are told apart by their final nibbles (41_cipher.md R116). -/
theorem encodeAllVariants_injective {j k : Fin 16}
    (h : (encodeAllVariants T t d1 d2 d3)[j] = (encodeAllVariants T t d1 d2 d3)[k]) : j = k := by
  have hfinal : BitVec.ofNat 4 j.val = BitVec.ofNat 4 k.val := by
    rw [← idP3_encodeAllVariants T t d1 d2 d3, h, idP3_encodeAllVariants]
  rw [(ofNat_val_eq_iff j _).1 hfinal, ← (ofNat_val_eq_iff k _).1 rfl]

/-- A seed stands in the entry at its final nibble and in no other. -/
theorem idSeed_encodeAllVariants_eq_iff (k : Fin 16) (c : Nibble) :
    idSeed (encodeAllVariants T t d1 d2 d3)[k] = c ↔ k = (finalNibble T t d1 d2 d3 c).toFin := by
  obtain ⟨d, hd, he⟩ := encodeAllVariants_getElem T t d1 d2 d3 k
  rw [← ofNat_val_eq_iff, ← hd, he, idSeed_variantOf, (finalNibble_injective T t d1 d2 d3).eq_iff]

end

/-- SC.ENCA does not read the seed nibble of its operand (41_cipher.md R115). -/
theorem runScEnca_mkId_seed (T : Tables) (id : Ident) (c : Nibble) (s : State) :
    runScEnca T (mkId (idType id) c (idP1 id) (idP2 id) (idP3 id)) s = runScEnca T id s := by
  simp only [runScEnca, idType_mkId, idP1_mkId, idP2_mkId, idP3_mkId]

/-- Settles O34: the entry at the final nibble of a seed is its variant, and the final nibble is a bijection. -/
theorem scEncaStoresEveryVariant : Obligations.ScEncaStoresEveryVariant :=
  ⟨fun _ => decode_of_opcode_toNat (.scEnca 0), fun s id => ⟨_, exec_eq (.scEnca id) s,
    encodeAllVariants_finalNibble Config.tables (idType id) (idP1 id) (idP2 id) (idP3 id),
    (finalNibble_bijective Config.tables (idType id) (idP1 id) (idP2 id) (idP3 id)).existsUnique, rfl⟩⟩

/-- Settles O35: the laws of `encodeAllVariants`, which SC.ENCA writes to VAR. -/
theorem scEncaLaws : Obligations.ScEncaLaws := by
  intro s id
  refine ⟨_, exec_eq (.scEnca id) s, fun k => ⟨idP3_encodeAllVariants _ _ _ _ _ k,
    idType_encodeAllVariants _ _ _ _ _ k, scDecode_encodeAllVariants _ _ _ _ _ k⟩, fun c => ?seedIgnored,
    fun _ _ => encodeAllVariants_injective _ _ _ _ _, fun c => ?seeds⟩
  case seedIgnored => rw [exec_eq, commandResult, runScEnca_mkId_seed, commandResult]
  case seeds =>
    exact ⟨_, (idSeed_encodeAllVariants_eq_iff _ _ _ _ _ _ c).2 rfl,
      fun k hk => (idSeed_encodeAllVariants_eq_iff _ _ _ _ _ k c).1 hk⟩

/-! ### The branches -/

theorem branchBit_selectTable (t : Nibble) :
    branchBit (selectTable t) = if t.zeroExtend 5 &&& 0b10011#5 ≠ 0 then 0 else 1 :=
  apply_ite branchBit _ _ _

theorem toNat_mod_four_eq_zero_iff (t : Nibble) : t.toNat % 4 = 0 ↔ t = 0 ∨ t = 4 ∨ t = 8 ∨ t = 12 := by
  bv_omega

theorem selectTable_eq_B_iff (t : Nibble) : selectTable t = .B ↔ t = 0 ∨ t = 4 ∨ t = 8 ∨ t = 12 := by
  rw [selectTable_eq, ← toNat_mod_four_eq_zero_iff]
  split <;> simp [*]

theorem selectTable_eq_A_iff (t : Nibble) : selectTable t = .A ↔ selectTable t ≠ .B := by
  cases selectTable t <;> decide

/-- Settles O30: SC.SEL writes the branch of the type to TSEL. -/
theorem scSelSelectsTheBranch : Obligations.ScSelSelectsTheBranch := by
  refine ⟨fun _ => decode_of_opcode_toNat (.scSel 0), fun s id => ?_⟩
  rw [exec_eq, commandResult, runScSel, branchBit_selectTable]
  rfl

/-- Settles O31: branch B is the types whose two low bits are 0. -/
theorem branchPartition : Obligations.BranchPartition := fun t =>
  ⟨selectTable_eq_B_iff t, (selectTable_eq_A_iff t).trans (selectTable_eq_B_iff t).not⟩

/-! ### SC.DEC -/

/-- Settles O32: SC.DEC writes `scDecode` of the identifier to RES_ID. -/
theorem scDecDecodesTheChain : Obligations.ScDecDecodesTheChain :=
  ⟨fun _ => decode_of_opcode_toNat (.scDec 0), fun s id => ⟨_, exec_eq (.scDec id) s,
    idType_scDecode _ id, idSeed_scDecode _ id, idP1_scDecode _ id, idP2_scDecode _ id, idP3_scDecode _ id, rfl⟩⟩

end Sys2Proof.Machine
end

section
/-! SUPPORT. The unit-state commands (42_unit_state.md): what a code in a list decodes to, and what US.ENC answers. -/

namespace Sys2Proof.Machine

open Sys2Proof.Config (Tables)

/-! ### The code US.ENC writes, decoded -/

section
variable {T : Tables} {t u sc : Nibble}

/-- A code decodes as on when it is an entry of the on list (42_unit_state.md R131). -/
theorem usDecode_eq_true_iff :
    usDecode T t u sc = true ↔ ∃ j : Fin 4, (usm T (selectTable t) u true)[j] = some sc :=
  codeList_any_iff _ sc

/-- The canonical on code is itself an entry of the on list, so no premise is needed (42_unit_state.md R134 (d)). -/
theorem usDecode_of_usEncode_on (h : usEncode T t u true = some sc) : usDecode T t u sc = true :=
  usDecode_eq_true_iff.2 ⟨1, h⟩

/-- The premise at a supported unit says of the canonical off code that it is no on code (10_state.md R30). -/
theorem offCodeApart_of_some (h : usEncode T t u false = some sc) : offCodeApart T t u = !usDecode T t u sc := by
  simp only [offCodeApart, h]

/-- A canonical code decodes to the state it encodes: on always, off where the off code is no on code. -/
theorem usDecode_of_usEncode {on : Bool} (h : usEncode T t u on = some sc)
    (hapart : on = false → offCodeApart T t u = true) : usDecode T t u sc = on := by
  cases on with
  | true => exact usDecode_of_usEncode_on h
  | false => simpa [offCodeApart_of_some h] using hapart rfl

end

/-- US.ENC succeeds only with a canonical code, which it leaves in RES_SC (42_unit_state.md R133). -/
theorem usEncode_of_runUsEnc_code {T : Tables} {on : Bool} {unit : Nibble} {id : Ident} {s : State}
    (h : (runUsEnc T on unit id s).code = 0) :
    usEncode T (idType id) unit on = some (runUsEnc T on unit id s).resSc := by
  cases hsc : usEncode T (idType id) unit on with
  | none =>
    rw [runUsEnc_of_none hsc, raise_code] at h
    exact absurd h (by decide)
  | some sc => rw [runUsEnc_of_some hsc, finish_resSc]

/-- Settles O40: the code left in RES_SC is the canonical code of the state, and a canonical code decodes back. -/
theorem canonicalCodeDecodesBack : Obligations.CanonicalCodeDecodesBack := by
  rintro T on unit id code s _ rfl hcode htype hlast hapart
  have hdec := usDecode_of_usEncode (usEncode_of_runUsEnc_code hcode) hapart
  rw [runUsDec, finish_resState, htype, hlast, hdec]

/-! ### The commands one by one -/

/-- Settles O36: US.DEC writes `usDecode` to RES_STATE, which tells whether the code is an entry of the on list. -/
theorem usDecLooksUpTheOnList : Obligations.UsDecLooksUpTheOnList := by
  refine ⟨fun _ => decode_of_opcode_toNat (.usDec 0 0), fun s unit id => ?_⟩
  rw [exec_eq, commandResult, runUsDec, ofBool_usDecode]
  rfl

/-- Settles O37: US.ENC ends by whether `usEncode`, entry 1 of the list, is there. -/
theorem usEncGivesTheCanonicalCode : Obligations.UsEncGivesTheCanonicalCode :=
  ⟨fun _ => decode_of_opcode_toNat (.usEnc false 0 0), fun s on unit id =>
    ⟨fun _ hsc => (exec_eq (.usEnc on unit id) s).trans (congrArg _ (runUsEnc_of_some hsc s)),
      fun hnone => (exec_eq (.usEnc on unit id) s).trans (congrArg _ (runUsEnc_of_none hnone s))⟩⟩

end Sys2Proof.Machine
end

section
/-! SUPPORT. ENCODE (43_synthesizer.md) on the registers: the states it answers written out, the sequence they hold, and
the commands that write the same sequence one by one. -/

namespace Sys2Proof.Machine

open Sys2Proof.Config (Tables)

/-! ### The states ENCODE answers -/

/-- What is left when no argument is missing (43_synthesizer.md R152). -/
theorem arguments_given {idv unv on off : Bool} (h : ¬ (idv = false ∨ unv = false ∨ on = off)) :
    idv = true ∧ unv = true ∧ off = !on := by
  revert idv unv on off; decide

section
variable {T : Tables} {on : Bool} {unit : Nibble} {id : Ident} {sc : Nibble}

/-- The row of success (43_synthesizer.md R157), register by register. -/
theorem runEncode_registers_of_cleared (hsc : usEncode T (idType id) unit on = some sc) (hid : idSeed id = 0)
    (s : State) :
    runEncode T true true on (!on) unit id s =
      { s with
        raw := synthesize s.raw (pickVariant T id sc) unit, len := 50, recId := id, recUnit := unit,
        recState := if on then 1 else 0, status := 0x50 } := by
  have hstate : BitVec.ofBool on = if on then 1 else 0 := by cases on <;> rfl
  simp only [runEncode_of_cleared T on unit id sc s hsc hid, finish, writeRecord, build, Option.getD_none, hstate]
  rfl

/-- The row of ConsistencyFailure (43_synthesizer.md R157), register by register. -/
theorem runEncode_registers_of_seed (hsc : usEncode T (idType id) unit on = some sc) (hid : idSeed id ≠ 0)
    (s : State) :
    runEncode T true true on (!on) unit id s =
      { s with
        raw := synthesize s.raw (pickVariant T id sc) unit, len := 50, sugId := id &&& 0xF0FFF,
        status := 0x83 } := by
  rw [runEncode_of_seed T on unit id sc s hsc hid, and_F0FFF]
  rfl

end

/-! ### The variant sent -/

section
variable (T : Tables) {id : Ident} (sc : Nibble)

@[simp] theorem idP3_pickVariant : idP3 (pickVariant T id sc) = sc := by
  obtain ⟨c, -, hcode, -, -⟩ := pickVariant_spec T id sc
  exact hcode

@[simp] theorem idType_pickVariant : idType (pickVariant T id sc) = idType id := by
  obtain ⟨c, -, -, htype, -⟩ := pickVariant_spec T id sc
  exact htype

theorem scDecode_pickVariant_of_cleared (hid : idSeed id = 0) :
    scDecode T (pickVariant T id sc) = id :=
  (scDecode_pickVariant T id sc).trans ((cleared_eq_iff id).2 hid)

theorem scDecode_pickVariant_ne (hid : idSeed id ≠ 0) : scDecode T (pickVariant T id sc) ≠ id :=
  fun h => hid ((cleared_eq_iff id).1 ((scDecode_pickVariant T id sc).symm.trans h))

end

/-! ### Decoding what was encoded -/

/-- Settles O52: the sequence carries the variant picked, which decodes to the request, and its last nibble is the
canonical code, which decodes to the state. -/
theorem encodeDecodeRoundTrip : Obligations.EncodeDecodeRoundTrip := by
  intro T s on unit id sc hid hsc hapart
  have hrun := runEncode_registers_of_cleared hsc hid s
  generalize runEncode T true true on (!on) unit id s = a at hrun
  have hraw : a.raw = synthesize s.raw (pickVariant T id sc) unit := by rw [hrun]
  have hlen : a.len = 50 := by rw [hrun]
  have hvalid : validate a.raw a.len = true := by rw [hraw, hlen, validate_synthesize]
  obtain ⟨hstatus, hrecId, hrecUnit, hrecState⟩ := runDecode_of_synthesized T hraw hlen
  refine ⟨by rw [hrun], ?accepted, hstatus, ?identifier, hrecUnit, ?state⟩
  case accepted => rw [runFvVal, if_pos hvalid]; rfl
  case identifier => rw [hrecId, scDecode_pickVariant_of_cleared T sc hid]
  case state => rw [hrecState, idType_pickVariant, idP3_pickVariant, usDecode_of_usEncode hsc hapart]

/-! ### The sequence that ENCODE leaves -/

/-- The pairs of the encoded identifier (43_synthesizer.md R155). -/
theorem synthesize_identifier_pair (raw : RawSeq) (enc : Ident) (unit : Nibble) {p : Nat} (hp : p < 20) :
    (synthesize raw enc unit)[2 * p] = (if enc.getLsbD (19 - p) then 1100 else 550) ∧
      (synthesize raw enc unit)[2 * p + 1] = (if enc.getLsbD (19 - p) then 550 else 1100) := by
  have hbit : synthesizedBit enc unit p = enc.getLsbD (19 - p) := if_pos (by omega)
  rw [synthesize_lead _ _ _ _ (by omega), synthesize_trail _ _ _ _ (by omega), hbit]
  exact ⟨leadOf_eq _, trailOf_eq _⟩

/-- The pairs of the unit (43_synthesizer.md R155). -/
theorem synthesize_unit_pair (raw : RawSeq) (enc : Ident) (unit : Nibble) {p : Nat} (hp : 20 ≤ p ∧ p < 24) :
    (synthesize raw enc unit)[2 * p]'(by omega) = (if unit.getLsbD (23 - p) then 1100 else 550) ∧
      (synthesize raw enc unit)[2 * p + 1]'(by omega) = (if unit.getLsbD (23 - p) then 550 else 1100) := by
  obtain ⟨h20, h24⟩ := hp
  rw [synthesize_lead _ _ _ _ h24, synthesize_trail _ _ _ _ h24, synthesizedBit_unit _ _ _ h20]
  exact ⟨leadOf_eq _, trailOf_eq _⟩

/-- Settles O49: RAW is the synthesized sequence of the variant picked. -/
theorem encodeSynthesizes : Obligations.EncodeSynthesizes := by
  refine ⟨fun _ => decode_of_opcode_toNat (.encode false false false false 0 0), fun s on unit id sc hid hsc => ?_⟩
  have hrun := runEncode_registers_of_cleared hsc hid s
  refine ⟨_, pickVariant Config.tables id sc, (exec_eq _ s).trans (congrArg _ hrun),
    scDecode_pickVariant_of_cleared _ sc hid, idP3_pickVariant _ sc,
    fun _ => synthesize_identifier_pair s.raw _ unit, fun _ => synthesize_unit_pair s.raw _ unit,
    synthesize_getElem_48 s.raw _ unit, synthesize_getElem_49 s.raw _ unit, rfl⟩

/-- Settles O50: the request and the cleared request pick the same variant. -/
theorem encodeSuggestsTheClearedId : Obligations.EncodeSuggestsTheClearedId := by
  intro s on unit id sc hid hsc
  have hrun := runEncode_registers_of_seed hsc hid s
  have hcleared : idSeed (id &&& 0xF0FFF) = 0 := by rw [and_F0FFF, idSeed_mkId]
  have htype : idType (id &&& 0xF0FFF) = idType id := by rw [and_F0FFF, idType_mkId]
  have hsc' : usEncode Config.tables (idType (id &&& 0xF0FFF)) unit on = some sc := by rw [htype]; exact hsc
  have hrun' := runEncode_registers_of_cleared hsc' hcleared s
  refine ⟨_, _, (exec_eq _ s).trans (congrArg _ hrun), (exec_eq _ s).trans (congrArg _ hrun'), rfl, ?_⟩
  rw [and_F0FFF, pickVariant_cleared]

/-- Settles O51: the four ends of `runEncode_cases`. -/
theorem encodeWritesByOutcome : Obligations.EncodeWritesByOutcome := by
  intro s idv unv on off unit id
  refine ⟨_, exec_eq _ s, ?_⟩
  obtain h | h | ⟨sc, ⟨rfl, rfl, rfl⟩, hsc, hseed⟩ := runEncode_cases Config.tables idv unv on off unit id s
  · exact .inl h
  · exact .inr (.inl h)
  · refine .inr (.inr ⟨pickVariant Config.tables id sc, (idP3_pickVariant Config.tables sc).symm ▸ hsc, ?_⟩)
    obtain ⟨hid, -⟩ | ⟨hid, -⟩ := hseed
    · exact .inr ⟨runEncode_registers_of_cleared hsc hid s, scDecode_pickVariant_of_cleared _ sc hid⟩
    · refine .inl ⟨?_, scDecode_pickVariant_ne _ sc hid⟩
      rw [scDecode_pickVariant, ← and_F0FFF]
      exact runEncode_registers_of_seed hsc hid s

/-! ### The unit-level commands -/

/-- PT.WR writes the same pairs from a value and from its image in the wider WV (40_pulse_timing.md R96). -/
theorem ptWrite_zeroExtend {n m last : Nat} (raw : RawSeq) (first : Nat) (v : BitVec n) (hm : last < m) :
    ptWrite raw first last (v.zeroExtend m) = ptWrite raw first last v := by
  have hbit (p : Fin 24) : (v.zeroExtend m).getLsbD (last - p.val) = v.getLsbD (last - p.val) := by
    simp [show last - p.val < m by omega]
  simp only [ptWrite, hbit]

/-- Settles O54: the commands write `synthesize` step by step, the variant and the unit being taken from WV. -/
theorem unitLevelEncodeAgrees : Obligations.UnitLevelEncodeAgrees := by
  intro s on unit id sc hid hsc
  refine ⟨_, _, _, _, _, _, _, (exec_eq _ s).trans (congrArg _ (runEncode_registers_of_cleared hsc hid s)), rfl,
    (exec_eq _ s).trans (congrArg _ (runUsEnc_of_some hsc s)), exec_eq (.scEnca id) _, exec_eq .ptBase _,
    exec_ptWr_0_19 _, exec_ptWr_20_23 _, exec_eq .ptFoot _, ?sequence, rfl, ?record⟩
  case sequence =>
    change ptFoot (ptWrite (ptWrite (ptBase s.raw) 0 19 ((pickVariant Config.tables id sc).zeroExtend 24)) 20 23
      (unit.zeroExtend 24)) = synthesize s.raw (pickVariant Config.tables id sc) unit
    rw [ptWrite_zeroExtend _ _ _ (by omega), ptWrite_zeroExtend _ _ _ (by omega), synthesize]
  case record => simp [commandResult, runPtFoot, runPtBase, runScEnca, statusWord, kindCode]

/-! ### The failures that write STATUS alone -/

/-- Settles O47: the arguments are tested first, and `raise` writes STATUS alone. -/
theorem encodeArgumentMissing : Obligations.EncodeArgumentMissing :=
  fun s idv unv on off unit id h =>
    (exec_eq _ s).trans (congrArg _ (runEncode_of_argumentMissing Config.tables idv unv on off unit id s h))

/-- Settles O48: the arguments are tested before the unit, and the unit before the seed nibble is looked at. -/
theorem encodeOrderOfTests : Obligations.EncodeOrderOfTests := by
  intro s idv unv on off unit id hnone
  by_cases hmissing : idv = false ∨ unv = false ∨ on = off
  · rw [if_pos hmissing]
    exact encodeArgumentMissing s idv unv on off unit id hmissing
  · rw [if_neg hmissing]
    obtain ⟨rfl, rfl, rfl⟩ := arguments_given hmissing
    exact (exec_eq _ s).trans (congrArg _ (runEncode_of_unsupported Config.tables on unit id s hnone))

end Sys2Proof.Machine
end

section
/-! SUPPORT. FV.VAL (44_frame_validator.md): what it answers on a frame outside the window. -/

namespace Sys2Proof.Machine

/-- FV.VAL on a rejected frame (44_frame_validator.md R171). -/
theorem exec_fvVal_of_rejected {s : State} (h : ¬ validate s.raw s.len = true) :
    exec .fvVal s = .next { s with status := 0x01 } :=
  congrArg Host.Outcome.next (if_neg h)

/-- Settles O41: the branches of FV.VAL are those of `validate`, which accepts exactly the frames of the window. -/
theorem fvValJudgesTheFrame : Obligations.FvValJudgesTheFrame := by
  refine ⟨fun _ => decode_of_opcode_toNat .fvVal, fun s => ?_⟩
  simp only [← validate_eq_true_iff]
  by_cases h : validate s.raw s.len = true
  · rw [if_pos h, exec_fvVal_of_accepted h]
  · rw [if_neg h, exec_fvVal_of_rejected h]

end Sys2Proof.Machine
end

section
/-! SUPPORT. The record builder and DECODE (45_builder_and_decode.md): the fields of the bit vector that make up the
record, and the unit-level commands that give the same record one by one. -/

namespace Sys2Proof.Machine

open Sys2Proof.Config (Tables)

/-! ### CM.BUILD -/

theorem ofBool_eq_ite (b : Bool) : BitVec.ofBool b = if b then 1 else 0 := by
  cases b <;> rfl

/-- Settles O42: both values of B are in `runCmBuild_frame`. -/
theorem cmBuildWritesTheRecord : Obligations.CmBuildWritesTheRecord := by
  refine ⟨fun _ => decode_of_opcode_toNat (.cmBuild false false 0 0), fun s bits on unit id => ?_⟩
  rw [exec_eq, commandResult, runCmBuild_frame, ofBool_eq_ite]

/-! ### The nibbles of the encoded identifier in the bit vector -/

section
variable (v : Bits24)

/-- The type handed to the decoders is positions 0 to 3 (45_builder_and_decode.md R183). -/
theorem idType_bvIdent : idType (bvIdent v) = v.extractLsb' 20 4 := bvIdent_extractLsb' v 16 (by omega)

theorem idSeed_bvIdent : idSeed (bvIdent v) = v.extractLsb' 16 4 := bvIdent_extractLsb' v 12 (by omega)

theorem idP1_bvIdent : idP1 (bvIdent v) = v.extractLsb' 12 4 := bvIdent_extractLsb' v 8 (by omega)

theorem idP2_bvIdent : idP2 (bvIdent v) = v.extractLsb' 8 4 := bvIdent_extractLsb' v 4 (by omega)

/-- The state code is positions 16 to 19, as they were on the air (45_builder_and_decode.md R183). -/
theorem idP3_bvIdent : idP3 (bvIdent v) = v.extractLsb' 4 4 := bvIdent_extractLsb' v 0 (by omega)

/-- The identifier of the record from the fields of the bit vector (41_cipher.md R113). -/
theorem scDecode_bvIdent (T : Tables) :
    scDecode T (bvIdent v) = mkId (v.extractLsb' 20 4) 0
      (v.extractLsb' 12 4 ^^^ sbox T (selectTable (v.extractLsb' 20 4)) (v.extractLsb' 16 4))
      (v.extractLsb' 8 4 ^^^ sbox T (selectTable (v.extractLsb' 20 4)) (v.extractLsb' 12 4))
      (v.extractLsb' 4 4 ^^^ sbox T (selectTable (v.extractLsb' 20 4)) (v.extractLsb' 8 4)) := by
  rw [scDecode_eq, idType_bvIdent, idSeed_bvIdent, idP1_bvIdent, idP2_bvIdent, idP3_bvIdent]

/-- The state of the record from the fields of the bit vector (42_unit_state.md R131). -/
theorem ofBool_frameRecord_state (T : Tables) :
    BitVec.ofBool (frameRecord T v).state =
      if ∃ j : Fin 4, (usm T (selectTable (v.extractLsb' 20 4)) (v.extractLsb' 0 4) true)[j] =
        some (v.extractLsb' 4 4) then 1 else 0 := by
  rw [← idType_bvIdent, ← idP3_bvIdent]
  exact ofBool_usDecode T _ _ _

end

/-! ### DECODE -/

/-- When a frame is rejected (44_frame_validator.md R171). -/
theorem validate_eq_false_iff (raw : RawSeq) (len : BitVec 8) :
    validate raw len = false ↔ len.toNat ≠ 50 ∨ raw[49].toNat < 6480 ∨ 7920 < raw[49].toNat := by
  rw [Bool.eq_false_iff, Ne, validate_eq_true_iff]
  omega

/-- DECODE on an accepted frame (45_builder_and_decode.md R184). -/
theorem exec_decode_of_accepted {s : State} (h : validate s.raw s.len = true) :
    exec .decode s = .next (finish { recv := true, diagv := true }
      (writeRecord (frameRecord Config.tables (demod s.raw)) { s with bvr := demod s.raw })) :=
  (exec_eq .decode s).trans (congrArg _ (runDecode_of_accepted _ s h))

/-- DECODE on a rejected frame (45_builder_and_decode.md R184). -/
theorem exec_decode_of_rejected {s : State} (h : validate s.raw s.len = false) :
    exec .decode s = .next { s with status := 0x01 } :=
  (exec_eq .decode s).trans (congrArg _ (runDecode_of_rejected _ s h))

/-- Settles O43: an accepted DECODE writes `frameRecord` of the demodulated bits. -/
theorem decodeGivesTheRecord : Obligations.DecodeGivesTheRecord := by
  refine ⟨fun _ => decode_of_opcode_toNat .decode, fun s => ⟨fun hlen hlo hhi => ?accepted, fun h => ?rejected⟩⟩
  case accepted =>
    have hv : validate s.raw s.len = true := (validate_eq_true_iff _ _).2 ⟨hlen, hlo, hhi⟩
    have hid := scDecode_bvIdent (demod s.raw) Config.tables
    refine ⟨_, exec_decode_of_accepted hv, demod_getLsbD s.raw, ⟨?_, ?_, ?_, ?_, ?_, rfl, ?_⟩, rfl, rfl⟩
    · exact (congrArg idType hid).trans (idType_mkId _ _ _ _ _)
    · exact (congrArg idSeed hid).trans (idSeed_mkId _ _ _ _ _)
    · exact (congrArg idP1 hid).trans (idP1_mkId _ _ _ _ _)
    · exact (congrArg idP2 hid).trans (idP2_mkId _ _ _ _ _)
    · exact (congrArg idP3 hid).trans (idP3_mkId _ _ _ _ _)
    · exact ofBool_frameRecord_state (demod s.raw) Config.tables
  case rejected => exact exec_decode_of_rejected ((validate_eq_false_iff _ _).2 h)

/-! ### The unit-level commands -/

/-- Settles O46: each command leaves in its result register the field of `frameRecord` that CM.BUILD is then given;
RES_STATE is read back as the truth value that US.DEC wrote. -/
theorem unitLevelDecodeAgrees : Obligations.UnitLevelDecodeAgrees := by
  intro s hlen hlo hhi
  have hv : validate s.raw s.len = true := (validate_eq_true_iff _ _).2 ⟨hlen, hlo, hhi⟩
  refine ⟨_, _, _, _, _, _, exec_decode_of_accepted hv, exec_fvVal_of_accepted hv, rfl, exec_eq .ptDem _,
    exec_eq (.scDec _) _, exec_eq (.usDec _ _) _, exec_eq (.cmBuild _ _ _ _) _, rfl, rfl, rfl, ?recState, rfl, rfl, rfl⟩
  case recState => exact congrArg BitVec.ofBool (decide_ofBool_eq_one (frameRecord Config.tables (demod s.raw)).state)

end Sys2Proof.Machine
end

section
/-! SUPPORT. Exceptions (60_exceptions.md): the accesses at which a step is refused, and the outcome kinds a command
ends in. -/

namespace Sys2Proof.Machine

/-! ### Refused accesses -/

/-- A write to an existing register is refused only where the register is writable and the value too wide
(20_memory.md R43, log entry 6). -/
theorem writeReg_refused {idx v : Nat} {q : Reg} {s : State} {r : Refusal} (h : writeReg idx q v s = .refused r) :
    q.writable = true ∧ 2 ^ q.width ≤ v ∧ r = .valueDoesNotFit idx v := by
  cases hw : q.writable with
  | false => rw [writeReg_of_readOnly hw] at h; cases h
  | true =>
    by_cases hv : v < 2 ^ q.width
    · by_cases hcmd : q = .cmd
      · subst hcmd
        simp only [writeReg, hw, hv, if_true, executeWord_eq] at h
        cases h
      · rw [writeReg_of_fits hw hcmd idx hv] at h
        cases h
    · have hv := Nat.not_lt.1 hv
      rw [writeReg_of_tooWide hw idx hv] at h
      exact ⟨rfl, hv, (Host.Outcome.refused.inj h).symm⟩

/-- Everything that makes a step answer a refusal: a read or a write at an index that names no register, or a value
too wide for a writable register. -/
theorem step_refused_cases {s : State} {r : Refusal} (h : step s = .refused r) :
    (∃ idx rest, s.port = .read idx :: rest ∧ regAt idx = none ∧ r = .reservedIndex idx) ∨
    (∃ idx v rest, s.port = .write idx v :: rest ∧ regAt idx = none ∧ r = .reservedIndex idx) ∨
    (∃ idx v q rest, s.port = .write idx v :: rest ∧ regAt idx = some q ∧ q.writable = true ∧ 2 ^ q.width ≤ v ∧
      r = .valueDoesNotFit idx v) := by
  cases hp : s.port with
  | nil => simp only [step, hp] at h; cases h
  | cons e rest =>
    cases e with
    | reset => rw [step_reset hp] at h; cases h
    | read idx =>
      cases hr : regAt idx with
      | none =>
        rw [step_read_of_reserved hp hr] at h
        exact .inl ⟨idx, rest, rfl, hr, (Host.Outcome.refused.inj h).symm⟩
      | some q => rw [step_read hp hr] at h; cases h
    | write idx v =>
      cases hr : regAt idx with
      | none =>
        rw [step_write_of_reserved hp hr] at h
        exact .inr (.inl ⟨idx, v, rest, rfl, hr, (Host.Outcome.refused.inj h).symm⟩)
      | some q =>
        rw [step_write hp hr] at h
        exact .inr (.inr ⟨idx, v, q, rest, rfl, hr, writeReg_refused h⟩)

/-- The writable registers with the least value too wide for each, by index (10_state.md R12). -/
theorem tooWide_of_writable {q : Reg} {v : Nat} (hw : q.writable = true) (hv : 2 ^ q.width ≤ v) :
    (q.index < 50 ∧ 2 ^ 16 ≤ v) ∨ (q.index = 0x32 ∧ 2 ^ 8 ≤ v) ∨ (q.index = 0x33 ∧ 2 ^ 24 ≤ v) ∨
      (q.index = 0x34 ∧ 2 ^ 32 ≤ v) := by
  cases q with
  | raw i => exact .inl ⟨i.isLt, hv⟩
  | len => exact .inr (.inl ⟨rfl, hv⟩)
  | wv => exact .inr (.inr (.inl ⟨rfl, hv⟩))
  | cmd => exact .inr (.inr (.inr ⟨rfl, hv⟩))
  | _ => cases hw

/-- Settles O12: every word has its `wordResult`, `Fault` has no value, and `step_refused_cases` names the refused
accesses. -/
theorem stopsOnlyAtTheHostBoundary : Obligations.StopsOnlyAtTheHostBoundary := by
  refine ⟨fun w s => ⟨wordResult w s, executeWord_eq w s⟩, fun s => ⟨nofun, fun r h => ?_⟩⟩
  obtain ⟨idx, rest, hp, hr, rfl⟩ | ⟨idx, v, rest, hp, hr, rfl⟩ | ⟨idx, v, q, rest, hp, hr, hw, hv, rfl⟩ :=
    step_refused_cases h
  · exact .inl ⟨idx, rest, hp, (regAt_eq_none_iff idx).1 hr, rfl⟩
  · exact .inr (.inl ⟨idx, v, rest, hp, (regAt_eq_none_iff idx).1 hr, rfl⟩)
  · obtain rfl := regAt_some hr
    exact .inr (.inr ⟨_, v, rest, hp, rfl, tooWide_of_writable hw hv⟩)

/-! ### Outcome kinds -/

/-- Settles O22: `commandResult_kind`, and `exec` answers the state it speaks of. -/
theorem outcomeKindsOfACommand : Obligations.OutcomeKindsOfACommand := by
  intro i s t ht
  obtain rfl := Host.Outcome.next.inj ((exec_eq i s).symm.trans ht)
  exact commandResult_kind i s

end Sys2Proof.Machine
end

section
/-! SUPPORT. The steps that take no command from the port: the idle step (70_reset_and_hazards.md R246) and the
platform's reset (R230). -/

namespace Sys2Proof.Machine

theorem step_of_port_empty {s : State} (hp : s.port = []) : step s = .next s := by
  simp only [step, hp]

/-- Settles O13: the step of an empty port. -/
theorem emptyPortIsIdle : Obligations.EmptyPortIsIdle := fun _ hp => step_of_port_empty hp

/-- Settles O14: the step is `platformReset`, which answers an `afterReset` state whatever the free values are. -/
theorem platformResetClears : Obligations.PlatformResetClears := fun _ _ hp =>
  ⟨_, step_reset hp, afterReset_cmd _ _ _ _, afterReset_status _ _ _ _, afterReset_len _ _ _ _,
    afterReset_port _ _ _ _, afterReset_outputs _ _ _ _⟩

end Sys2Proof.Machine
end
